-- ==== Sys2Proof/Word.lean ====
section
/-! DEFINITION. The value types of the CORE (spec/00_scope.md R5, R9). -/

namespace Sys2Proof

/-- A byte of the memory image (R403) and a code on the output channel (R206). -/
abbrev Byte := BitVec 8

/-- The spec's *cell*: one 16-bit storage unit of memory, of a register or of the stack (R9, 90_conflicts.md C1). -/
abbrev Cell := BitVec 16

/-- The spec's *Word*: a cell whose value is 0..32767, held in 15 bits (R9). Literals and input codes are Words. -/
abbrev Word := BitVec 15

end Sys2Proof
end

