-- ==== Sys2Proof/Config.lean ====
section
/-! DEFINITION. The implementation parameters of spec/00_scope.md R5: those with one value as constants, those that
"a model takes as an argument" as the fields of `Config`. The spec leaves no result open, so there is no free value here. -/

namespace Sys2Proof

/-- The arguments R5 says a model takes. Configuration, not architectural state (R20). -/
structure Config where
  /-- `MEM_CAPACITY`: how many cells memory has (R5; 92_eei_decisions.md D1). -/
  memCapacity : Nat
  /-- `STACK_CAPACITY`: no bound, or the bound (R5; D12). -/
  stackCapacity : Option Nat
  /-- `END_OF_MEMORY_IS_SUCCESS`: whether the END_OF_MEMORY outcome counts as a successful end (R5; D10). -/
  endOfMemoryIsSuccess : Bool
  deriving DecidableEq, Repr

/-- The defaults of R5: 32767 cells, an unbounded stack, END_OF_MEMORY no success (D1, D12, D10). -/
def Config.standard : Config :=
  { memCapacity := 32767, stackCapacity := none, endOfMemoryIsSuccess := false }

/-- `MEM_CAPACITY` is taken in 1..32768 (D1). -/
abbrev Config.wf (c : Config) : Prop := 1 ≤ c.memCapacity ∧ c.memCapacity ≤ 32768

/-- `WORD_MAX` (R5). -/
def wordMax : Nat := 32767

/-- `MODULUS` of `Add` and `Mult` (R5). -/
def modulus : Nat := 32768

/-- `REG_BASE`: the operand word of register 0 (R5). -/
def regBase : Nat := 32768

/-- `NOPCODES`: opcode values are 0..21 (R5). -/
def nOpcodes : Nat := 22

/-- `OUT_MAX`: the largest value `Out` accepts (R5). -/
def outMax : Nat := 255

end Sys2Proof
end

