-- ==== Sys2Proof/Syntax.lean ====
section
/-! DEFINITION. The instructions as data: "an opcode plus 0, 1, 2, or 3 Operands, arity fixed per opcode"
(spec/30_encoding.md R69). One constructor for each row of spec/opcode_table.json. -/

namespace Sys2Proof

/-- An operand as decode classifies it, not yet resolved (R9, R64, R69). -/
inductive Operand where
  /-- `Lit(n)`, n a Word. -/
  | lit (n : Word)
  /-- `Reg(i)`, i in 0..7. -/
  | reg (i : Fin 8)
  deriving DecidableEq, Repr

/-- The operand slots in order (00_scope.md glossary, R60). -/
inductive Slot where
  | a
  | b
  | c
  deriving DecidableEq, Repr

/-- The number of a slot, 1..3, as the fault record names it (60_exceptions.md R301) and as the offset of its word from
the opcode word (R60). -/
def Slot.number : Slot → Nat
  | .a => 1
  | .b => 2
  | .c => 3

/-- The 22 instructions (R63), slots in the order a, b, c. `in_` is the table's `In`. -/
inductive Instr where
  | halt
  | set (a b : Operand)
  | push (a : Operand)
  | pop (a : Operand)
  | eq (a b c : Operand)
  | gt (a b c : Operand)
  | jmp (a : Operand)
  | jt (a b : Operand)
  | jf (a b : Operand)
  | add (a b c : Operand)
  | mult (a b c : Operand)
  | mod (a b c : Operand)
  | and (a b c : Operand)
  | or (a b c : Operand)
  | not (a b : Operand)
  | rmem (a b : Operand)
  | wmem (a b : Operand)
  | call (a : Operand)
  | ret
  | out (a : Operand)
  | in_ (a : Operand)
  | noop
  deriving DecidableEq, Repr

end Sys2Proof
end

