-- ==== Sys2Proof/WellFormed.lean ====
section
/-! DEFINITION. Which instructions are legal encodings. The ranges of literals and register numbers are in the types; what is
left is the destination rule (spec/40_machine_control.md R103): a literal in a `dst` slot is an illegal encoding (30_encoding.md
R67, item 3). Such an instruction still decodes, and its meaning is the fault InvalidDestination. -/

namespace Sys2Proof

/-- The operand names a register. -/
def Operand.isReg : Operand → Bool
  | .lit _ => false
  | .reg _ => true

/-- The operand in a `dst` slot, for the twelve instructions that have one (R22, R63, R103). -/
def Instr.destination : Instr → Option Operand
  | .halt => none
  | .set a _ => some a
  | .push _ => none
  | .pop a => some a
  | .eq a _ _ => some a
  | .gt a _ _ => some a
  | .jmp _ => none
  | .jt _ _ => none
  | .jf _ _ => none
  | .add a _ _ => some a
  | .mult a _ _ => some a
  | .mod a _ _ => some a
  | .and a _ _ => some a
  | .or a _ _ => some a
  | .not a _ => some a
  | .rmem a _ => some a
  | .wmem _ _ => none
  | .call _ => none
  | .ret => none
  | .out _ => none
  | .in_ a => some a
  | .noop => none

/-- No literal stands in a `dst` slot (R67, R103). -/
def Instr.wellFormed (i : Instr) : Bool :=
  match i.destination with
  | none => true
  | some a => a.isReg

end Sys2Proof
end

