-- ==== Sys2Proof/Decode.lean ====
section
/-! DEFINITION. Decoding cells into an instruction, total and rejecting by name (spec/30_encoding.md R60 to R68), and after it
the encoder, written from the same tables (R62, R63, R64). -/

namespace Sys2Proof

/-- Why cells do not decode (R67, R68). -/
inductive DecodeError where
  /-- The first cell is 22..65535 (R61). -/
  | unknownOpcode (w : Cell)
  /-- The operand word of a slot is 32776..65535 (R64). -/
  | invalidOperandEncoding (slot : Slot) (w : Cell)
  /-- There is no cell for the slot's operand word: memory ends before it (R68). -/
  | operandMissing (slot : Slot)
  /-- There is no cell at all. -/
  | opcodeMissing
  deriving DecidableEq, Repr

/-- `classify` of R64, by the bits it names. -/
def classify (slot : Slot) (w : Cell) : Except DecodeError Operand :=
  if w.getLsbD 15 = false then .ok (.lit (w.extractLsb' 0 15))
  else if w.extractLsb' 3 13 = 0b1000000000000#13 then
    .ok (.reg ⟨(w.extractLsb' 0 3).toNat, (w.extractLsb' 0 3).isLt⟩)
  else .error (.invalidOperandEncoding slot w)

/-- The operand word of a slot is the next cell (R60); it is classified as it is read (R68). -/
def readOperand (slot : Slot) : List Cell → Except DecodeError (Operand × List Cell)
  | [] => .error (.operandMissing slot)
  | w :: rest =>
    match classify slot w with
    | .ok o => .ok (o, rest)
    | .error e => .error e

/-- Format F1: slot a (R62). -/
def decodeF1 (mk : Operand → Instr) (ws : List Cell) : Except DecodeError Instr :=
  match readOperand .a ws with
  | .error e => .error e
  | .ok (a, _) => .ok (mk a)

/-- Format F2: slots a, b in order, stopping at the first failure (R62, R68). -/
def decodeF2 (mk : Operand → Operand → Instr) (ws : List Cell) : Except DecodeError Instr :=
  match readOperand .a ws with
  | .error e => .error e
  | .ok (a, ws₁) =>
    match readOperand .b ws₁ with
    | .error e => .error e
    | .ok (b, _) => .ok (mk a b)

/-- Format F3: slots a, b, c in order, stopping at the first failure (R62, R68). -/
def decodeF3 (mk : Operand → Operand → Operand → Instr) (ws : List Cell) : Except DecodeError Instr :=
  match readOperand .a ws with
  | .error e => .error e
  | .ok (a, ws₁) =>
    match readOperand .b ws₁ with
    | .error e => .error e
    | .ok (b, ws₂) =>
      match readOperand .c ws₂ with
      | .error e => .error e
      | .ok (c, _) => .ok (mk a b c)

/-- `decode` of R68 on the cells that start at the opcode word, with the opcode map of R63. Cells after the instruction's last
operand word are not looked at (R67). -/
def decode : List Cell → Except DecodeError Instr
  | [] => .error .opcodeMissing
  | w :: ws =>
    match w.toNat with
    | 0 => .ok .halt
    | 1 => decodeF2 .set ws
    | 2 => decodeF1 .push ws
    | 3 => decodeF1 .pop ws
    | 4 => decodeF3 .eq ws
    | 5 => decodeF3 .gt ws
    | 6 => decodeF1 .jmp ws
    | 7 => decodeF2 .jt ws
    | 8 => decodeF2 .jf ws
    | 9 => decodeF3 .add ws
    | 10 => decodeF3 .mult ws
    | 11 => decodeF3 .mod ws
    | 12 => decodeF3 .and ws
    | 13 => decodeF3 .or ws
    | 14 => decodeF2 .not ws
    | 15 => decodeF2 .rmem ws
    | 16 => decodeF2 .wmem ws
    | 17 => decodeF1 .call ws
    | 18 => .ok .ret
    | 19 => decodeF1 .out ws
    | 20 => decodeF1 .in_ ws
    | 21 => .ok .noop
    | _ => .error (.unknownOpcode w)

/-- The byte order of the memory image: two consecutive bytes are one cell, low byte first (20_memory.md R42,
70_reset_and_hazards.md R403). A single byte left over makes no cell. -/
def cellsOfBytes : List Byte → List Cell
  | lo :: hi :: rest => (hi ++ lo) :: cellsOfBytes rest
  | _ => []

/-- The decoder on bytes as the image lays them out. -/
def decodeBytes (bytes : List Byte) : Except DecodeError Instr := decode (cellsOfBytes bytes)

/-! ## The encoder -/

/-- The operand word of an operand: a literal is its value, register i is `REG_BASE` + i (R64, R70). -/
def Operand.encode : Operand → Cell
  | .lit n => n.setWidth 16
  | .reg i => BitVec.ofNat 16 (regBase + i.val)

/-- The opcode word (R63). -/
def Instr.opcode : Instr → Cell
  | .halt => 0
  | .set _ _ => 1
  | .push _ => 2
  | .pop _ => 3
  | .eq _ _ _ => 4
  | .gt _ _ _ => 5
  | .jmp _ => 6
  | .jt _ _ => 7
  | .jf _ _ => 8
  | .add _ _ _ => 9
  | .mult _ _ _ => 10
  | .mod _ _ _ => 11
  | .and _ _ _ => 12
  | .or _ _ _ => 13
  | .not _ _ => 14
  | .rmem _ _ => 15
  | .wmem _ _ => 16
  | .call _ => 17
  | .ret => 18
  | .out _ => 19
  | .in_ _ => 20
  | .noop => 21

/-- The operands in slot order (R60, R63). -/
def Instr.operands : Instr → List Operand
  | .halt => []
  | .set a b => [a, b]
  | .push a => [a]
  | .pop a => [a]
  | .eq a b c => [a, b, c]
  | .gt a b c => [a, b, c]
  | .jmp a => [a]
  | .jt a b => [a, b]
  | .jf a b => [a, b]
  | .add a b c => [a, b, c]
  | .mult a b c => [a, b, c]
  | .mod a b c => [a, b, c]
  | .and a b c => [a, b, c]
  | .or a b c => [a, b, c]
  | .not a b => [a, b]
  | .rmem a b => [a, b]
  | .wmem a b => [a, b]
  | .call a => [a]
  | .ret => []
  | .out a => [a]
  | .in_ a => [a]
  | .noop => []

/-- The words of an instruction: its opcode word, then one word per operand (R60, R70). -/
def encode (i : Instr) : List Cell := i.opcode :: i.operands.map Operand.encode

/-- How many operand words follow the opcode word (R62). -/
def Instr.arity (i : Instr) : Nat := i.operands.length

/-- The length in cells, 1 + arity (R66). -/
def Instr.length (i : Instr) : Nat := 1 + i.arity

/-- The arity of each opcode value, read from the opcode word alone (R62, R66); none for an unknown opcode. -/
def arityOfOpcode (w : Cell) : Option Nat :=
  match w.toNat with
  | 0 | 18 | 21 => some 0
  | 2 | 3 | 6 | 17 | 19 | 20 => some 1
  | 1 | 7 | 8 | 14 | 15 | 16 => some 2
  | 4 | 5 | 9 | 10 | 11 | 12 | 13 => some 3
  | _ => none

/-- The bytes of cells as the image lays them out, low byte first (R403). -/
def bytesOfCells : List Cell → List Byte
  | [] => []
  | w :: ws => w.extractLsb' 0 8 :: w.extractLsb' 8 8 :: bytesOfCells ws

/-! ## Words numbered as the opcode table numbers them -/

/-- The four cells of an instruction given as one number: bit 0 is bit 0 of the first word, the second word is bits 31..16,
and so on; every bit from `nbits` up is 0. Four is the longest instruction (R66). -/
def tableCells (nbits w : Nat) : List Cell :=
  let v := w % 2 ^ nbits
  [BitVec.ofNat 16 v, BitVec.ofNat 16 (v / 2 ^ 16), BitVec.ofNat 16 (v / 2 ^ 32), BitVec.ofNat 16 (v / 2 ^ 48)]

/-- What the decoder reads from the instruction whose bits are `w`. -/
def decodeTableWord (nbits w : Nat) : Option Instr :=
  match decode (tableCells nbits w) with
  | .ok i => some i
  | .error _ => none

end Sys2Proof
end

