-- ==== Sys2Proof/Machine/State.lean ====
section
/-! DEFINITION. The machine's state as plain data (spec/10_state.md R20 to R34), the reasons a step can stop, and reset. -/

namespace Sys2Proof.Machine

/-- The register file, 8 cells (R21). -/
structure Regs where
  r0 : Cell
  r1 : Cell
  r2 : Cell
  r3 : Cell
  r4 : Cell
  r5 : Cell
  r6 : Cell
  r7 : Cell
  deriving DecidableEq, Repr

/-- Memory as the bytes of its cells: the cell at word address a is byte 2a (low) and byte 2a+1 (high), the layout of the
image (R42, R403). Byte addresses strictly rise and no byte listed is 0. DESIGN CHOICE, safe: notes/assumptions/1.md. -/
abbrev Memory := List Host.Cell

/-- Run status (R30). -/
inductive Status where
  | running
  | halted
  | returned
  | inputEof
  | endOfMemory
  | faulted
  deriving DecidableEq, Repr

/-- The codes of R30. -/
def Status.code : Status → Nat
  | .running => 0
  | .halted => 1
  | .returned => 2
  | .inputEof => 3
  | .endOfMemory => 4
  | .faulted => 5

/-- The fault kinds (60_exceptions.md R301). -/
inductive FaultKind where
  | unknownOpcode
  | invalidOperandEncoding
  | instructionPastEndOfMemory
  | invalidDestination
  | stackUnderflow
  | divisionByZero
  | nonCharacterValue
  | memoryOutOfRange
  | jumpOutOfRange
  | ioError
  | stackOverflow
  | loadError
  deriving DecidableEq, Repr

/-- The codes of R301. -/
def FaultKind.code : FaultKind → Nat
  | .unknownOpcode => 1
  | .invalidOperandEncoding => 2
  | .instructionPastEndOfMemory => 3
  | .invalidDestination => 4
  | .stackUnderflow => 5
  | .divisionByZero => 6
  | .nonCharacterValue => 7
  | .memoryOutOfRange => 8
  | .jumpOutOfRange => 9
  | .ioError => 10
  | .stackOverflow => 11
  | .loadError => 12

/-- The `info` column of R301. -/
inductive FaultInfo where
  /-- StackUnderflow, DivisionByZero, IoError, StackOverflow: none. -/
  | none
  /-- The opcode word, the address, the literal, the value or the target, as a cell. -/
  | cell (w : Cell)
  /-- InvalidOperandEncoding: the slot and the word. -/
  | operand (slot : Slot) (w : Cell)
  /-- LoadError: the image's length in bytes. -/
  | imageLength (n : Nat)
  deriving DecidableEq, Repr

/-- The fault record (R31): kind, `addr` (the failing instruction's `pc0`, absent for LoadError) and info. -/
structure FaultRecord where
  kind : FaultKind
  addr : Option Cell
  info : FaultInfo
  deriving DecidableEq, Repr

/-- The three responses of the input channel (47_io.md R200). A code is a Word: the host must give codes 0..32767 only
(R200, D13; notes/assumptions/8.md). -/
inductive Response where
  | char (c : Word)
  | endOfInput
  | ioError
  deriving DecidableEq, Repr

/-- All the state of the CORE (R20), the traffic of its two channels (R6) and the configuration it was built with. -/
structure State where
  /-- The arguments of R5; no step changes them (notes/assumptions/2.md). -/
  config : Config
  /-- Memory (R26). -/
  mem : Memory
  /-- The general registers (R21). -/
  regs : Regs
  /-- The stack, top entry first (R27). -/
  stack : List Cell
  /-- The program counter, 0..`MEM_CAPACITY` (R24). -/
  pc : Cell
  /-- Run status (R30). -/
  status : Status
  /-- The fault record; empty unless FAULTED (R31). -/
  faultRecord : Option FaultRecord
  /-- The responses the input channel has ready, oldest first (R200, R205; notes/assumptions/8.md). -/
  input : List Response
  /-- The codes emitted so far, oldest first (R206; notes/assumptions/9.md). -/
  output : List Byte
  deriving DecidableEq, Repr

/-- Why a step stops the model with a fault. Every failure the spec describes is a NEXT state with status FAULTED
(60_exceptions.md R302), so only a state the spec rules out is left here. -/
inductive Fault where
  /-- Raised by `step` alone, when a running CORE's pc is above `MEM_CAPACITY`: a value pc never holds (R24), for which the spec
  gives no step. Safe: the model stops. notes/assumptions/19.md. -/
  | pcBeyondMemory
  deriving DecidableEq, Repr

/-- Why the model has no meaning to give. -/
inductive Refusal where
  /-- Raised by an arm of `exec` for an instruction that has no meaning yet; no arm raises it. Safe: the model stops. -/
  | notModelled (mnemonic : String)
  deriving DecidableEq, Repr

/-- What a meaning answers. -/
abbrev Result := Host.Outcome State Fault Refusal

/-- Every register 0 (R34). -/
def Regs.zero : Regs := { r0 := 0, r1 := 0, r2 := 0, r3 := 0, r4 := 0, r5 := 0, r6 := 0, r7 := 0 }

/-- The machine right after reset with the empty image (R34, R400, R406) and the default parameters (R5): memory 0, registers 0,
stack empty, pc 0, RUNNING, no fault record. No response is ready and nothing has been emitted (notes/assumptions/8.md, 9.md). A
program is loaded from outside: `State.load` (notes/assumptions/20.md). -/
def State.reset : State :=
  { config := Config.standard
    mem := []
    regs := Regs.zero
    stack := []
    pc := 0
    status := .running
    faultRecord := none
    input := []
    output := [] }

end Sys2Proof.Machine
end

