-- ==== Sys2Proof/Machine/Ops.lean ====
section
/-! DEFINITION. The named operations over memory, registers, stack, pc, run status and channels: the pseudocode primitives of
spec/00_scope.md R8, and taking a fault (60_exceptions.md R302) as one shared operation. There is no return from a fault (R308)
and no trap entry (R307). -/

namespace Sys2Proof.Machine

/-! ## Memory -/

/-- What a byte that memory does not list reads as: memory is zero-initialised (R34, R400). -/
def Memory.unlisted : Byte := 0

/-- Read one byte. -/
def Memory.readByte : Memory → Nat → Byte
  | [], _ => Memory.unlisted
  | c :: m, a => if c.1 = a then c.2 else Memory.readByte m a

/-- Put a byte at its place in the order of addresses. -/
def Memory.insertByte : Memory → Nat → Byte → Memory
  | [], a, v => [(a, v)]
  | c :: m, a, v => if a < c.1 then (a, v) :: c :: m else c :: Memory.insertByte m a v

/-- Write one byte. What was listed at the address goes; the new byte is listed unless an unlisted byte reads as the same. -/
def Memory.writeByte (m : Memory) (a : Nat) (v : Byte) : Memory :=
  let m' := m.filter fun c => decide (c.1 ≠ a)
  if v = Memory.unlisted then m' else Memory.insertByte m' a v

/-- Every byte address of `m` is at least `lo`, addresses strictly rise, and no byte reads as an unlisted one would. -/
def Memory.wfFrom (lo : Nat) : Memory → Bool
  | [] => true
  | c :: m => decide (lo ≤ c.1) && decide (c.2 ≠ Memory.unlisted) && Memory.wfFrom (c.1 + 1) m

/-- The canonical form: equal memories are equal lists. -/
def Memory.wf (m : Memory) : Bool := Memory.wfFrom 0 m

/-- No byte is listed outside the cells 0..n-1. -/
def Memory.within (n : Nat) (m : Memory) : Bool := m.all fun c => decide (c.1 < 2 * n)

/-- `MemRead(addr, 1)`: the 16-bit cell at a word address (R8, R44). -/
def Memory.readCell (m : Memory) (a : Nat) : Cell := m.readByte (2 * a + 1) ++ m.readByte (2 * a)

/-- `MemWrite(addr, 1, v)`: the whole cell, all 16 bits (R8, R44). -/
def Memory.writeCell (m : Memory) (a : Nat) (v : Cell) : Memory :=
  (m.writeByte (2 * a) (v.extractLsb' 0 8)).writeByte (2 * a + 1) (v.extractLsb' 8 8)

/-- Write cells in order from an address on; those at or past `limit` are dropped (70_reset_and_hazards.md R403, R405). -/
def Memory.storeFrom (m : Memory) (limit a : Nat) : List Cell → Memory
  | [] => m
  | w :: ws => Memory.storeFrom (if a < limit then m.writeCell a w else m) limit (a + 1) ws

/-- At most `n` cells from an address on, as far as memory goes (`limit` cells). -/
def Memory.cellsFrom (m : Memory) (limit a : Nat) : Nat → List Cell
  | 0 => []
  | n + 1 => if a < limit then m.readCell a :: Memory.cellsFrom m limit (a + 1) n else []

/-! ## Registers -/

/-- `x[i]` (R8). -/
def Regs.get (r : Regs) (i : Fin 8) : Cell :=
  match i with
  | 0 => r.r0
  | 1 => r.r1
  | 2 => r.r2
  | 3 => r.r3
  | 4 => r.r4
  | 5 => r.r5
  | 6 => r.r6
  | 7 => r.r7

/-- `x[i] <- v` (R8). No register is hard-wired (R23). -/
def Regs.set (r : Regs) (i : Fin 8) (v : Cell) : Regs :=
  match i with
  | 0 => { r with r0 := v }
  | 1 => { r with r1 := v }
  | 2 => { r with r2 := v }
  | 3 => { r with r3 := v }
  | 4 => { r with r4 := v }
  | 5 => { r with r5 := v }
  | 6 => { r with r6 := v }
  | 7 => { r with r7 := v }

/-- The register's current 16-bit content. -/
def State.readReg (s : State) (i : Fin 8) : Cell := s.regs.get i

/-! ## Updates of one piece of state each -/

/-- Write one register. -/
def State.writeReg (s : State) (i : Fin 8) (v : Cell) : State := { s with regs := s.regs.set i v }

/-- Write one memory cell. -/
def State.storeCell (s : State) (a : Nat) (v : Cell) : State := { s with mem := s.mem.writeCell a v }

/-- Replace the stack. -/
def State.setStack (s : State) (k : List Cell) : State := { s with stack := k }

/-- `pc <- target` (R8). -/
def State.setPc (s : State) (t : Cell) : State := { s with pc := t }

/-- `Emit(v)`: hand a code to the output channel (R206). -/
def State.emit (s : State) (v : Byte) : State := { s with output := s.output ++ [v] }

/-- What is left on the input channel after a response is taken (R200). -/
def State.setInput (s : State) (rs : List Response) : State := { s with input := rs }

/-- The run has ended without a fault (R30). -/
def State.ended (s : State) (o : Status) : State := { s with status := o }

/-- FAULTED, with its record (R30, R31). -/
def State.faulted (s : State) (r : FaultRecord) : State := { s with status := .faulted, faultRecord := some r }

/-! ## Program counter -/

/-- `npc = pc0 + 1 + arity` (R101). -/
def State.npc (s : State) (arity : Nat) : Cell := s.pc + BitVec.ofNat 16 (1 + arity)

/-- Default control flow: `pc <- npc` (R101). -/
def State.advance (s : State) (arity : Nat) : State := s.setPc (s.npc arity)

/-! ## Taking a fault and ending a run -/

/-- `raise Kind(pc0, info)` (R8, R302): status FAULTED and the record (kind, pc0, info); nothing else is written, pc keeps pc0.
There is no handler: no later step happens (R105, R307). -/
def State.raise (s : State) (kind : FaultKind) (info : FaultInfo) : Result :=
  .next (s.faulted { kind := kind, addr := some s.pc, info := info })

/-- `finish Outcome` by an instruction: the outcome and `pc <- npc`, nothing else (R8, R304, D15). -/
def State.finish (s : State) (o : Status) (arity : Nat) : Result := .next ((s.ended o).advance arity)

/-- The host's view after a run (60_exceptions.md R314): the status and the fault record. -/
def State.report (s : State) : Status × Option FaultRecord := (s.status, s.faultRecord)

/-! ## Checks: each raises its fault or goes on -/

/-- The control-transfer target check (43_jumps.md R150). -/
def State.checkTarget (s : State) (t : Cell) (go : Result) : Result :=
  if s.config.memCapacity ≤ t.toNat then s.raise .jumpOutOfRange (.cell t) else go

/-- The data address check (45_memory_access.md R180). -/
def State.checkAddress (s : State) (a : Cell) (go : Result) : Result :=
  if s.config.memCapacity ≤ a.toNat then s.raise .memoryOutOfRange (.cell a) else go

/-- The stack is bounded and `depth == STACK_CAPACITY` (R121, R190). -/
def State.stackFull (s : State) : Bool :=
  match s.config.stackCapacity with
  | none => false
  | some n => decide (s.stack.length = n)

/-- Room on the stack (R121, R190; D12). -/
def State.checkStackRoom (s : State) (go : Result) : Result :=
  if s.stackFull then s.raise .stackOverflow .none else go

end Sys2Proof.Machine
end

