-- ==== Sys2Proof/Machine/Operands.lean ====
section
/-! DEFINITION. The operand forms: the source operand through `value` (spec/40_machine_control.md R102) and the destination
operand through the destination rule (R103). There is no other operand form (30_encoding.md R65). -/

namespace Sys2Proof.Machine

/-- `value(op)` (R102): a literal as it is, a register's current 16-bit content. It never fails. -/
def State.value (s : State) : Operand → Cell
  | .lit n => n.setWidth 16
  | .reg i => s.readReg i

/-- `check_destination` (R103): a literal in slot a raises InvalidDestination(pc0, a, n), before any check that depends on a
value (R303); a register goes on. -/
def State.checkDestination (s : State) (a : Operand) (go : Fin 8 → Result) : Result :=
  match a with
  | .lit n => s.raise .invalidDestination (.cell (n.setWidth 16))
  | .reg i => go i

/-- `x[i] <- v; pc <- npc`: how every register writer but `In` ends. -/
def State.writeResult (s : State) (i : Fin 8) (v : Cell) (arity : Nat) : Result :=
  .next ((s.writeReg i v).advance arity)

end Sys2Proof.Machine
end

