-- ==== Sys2Proof/Machine/Alu.lean ====
section
/-! DEFINITION. Add, Mult, Mod, And, Or, Not (spec/44_alu.md R160 to R166). Operands are unsigned 16-bit values taken as natural
numbers; nothing is signed and there are no flags (R160, R28). -/

namespace Sys2Proof.Machine

/-- The exact sum modulo 32768 (R161). -/
def addResult (b c : Cell) : Cell := BitVec.ofNat 16 ((b.toNat + c.toNat) % modulus)

/-- The exact product modulo 32768 (R162). -/
def multResult (b c : Cell) : Cell := BitVec.ofNat 16 ((b.toNat * c.toNat) % modulus)

/-- The remainder of natural numbers, not reduced (R163); asked only for a divisor other than 0. -/
def modResult (b c : Cell) : Cell := BitVec.ofNat 16 (b.toNat % c.toNat)

/-- The mask of the bitwise operations, 0x7FFF (R160). -/
def wordMask : Cell := 0x7FFF#16

/-- Bitwise and, masked to 15 bits (R164; D4 above 32767, notes/assumptions/15.md). -/
def andResult (b c : Cell) : Cell := (b &&& c) &&& wordMask

/-- Bitwise or, masked to 15 bits (R165; D4 above 32767, notes/assumptions/15.md). -/
def orResult (b c : Cell) : Cell := (b ||| c) &&& wordMask

/-- Bitwise complement, masked to 15 bits (R166). -/
def notResult (b : Cell) : Cell := (~~~b) &&& wordMask

/-- `Add a b c` (R161). -/
def execAdd (a b c : Operand) (s : State) : Result :=
  s.checkDestination a fun i => s.writeResult i (addResult (s.value b) (s.value c)) 3

/-- `Mult a b c` (R162). -/
def execMult (a b c : Operand) (s : State) : Result :=
  s.checkDestination a fun i => s.writeResult i (multResult (s.value b) (s.value c)) 3

/-- `Mod a b c` (R163): the destination, then the zero divisor. -/
def execMod (a b c : Operand) (s : State) : Result :=
  s.checkDestination a fun i =>
    if s.value c = 0#16 then s.raise .divisionByZero .none
    else s.writeResult i (modResult (s.value b) (s.value c)) 3

/-- `And a b c` (R164). -/
def execAnd (a b c : Operand) (s : State) : Result :=
  s.checkDestination a fun i => s.writeResult i (andResult (s.value b) (s.value c)) 3

/-- `Or a b c` (R165). -/
def execOr (a b c : Operand) (s : State) : Result :=
  s.checkDestination a fun i => s.writeResult i (orResult (s.value b) (s.value c)) 3

/-- `Not a b` (R166). -/
def execNot (a b : Operand) (s : State) : Result :=
  s.checkDestination a fun i => s.writeResult i (notResult (s.value b)) 2

end Sys2Proof.Machine
end

