-- ==== Sys2Proof/Machine/CallReturn.lean ====
section
/-! DEFINITION. Call and Ret (spec/46_call_return.md R190, R191). -/

namespace Sys2Proof.Machine

/-- `Call a` (R190): the target, then the room, then `StackPush(npc)` and `pc <- t`. -/
def execCall (a : Operand) (s : State) : Result :=
  s.checkTarget (s.value a)
    (s.checkStackRoom (.next ((s.setStack (s.npc 1 :: s.stack)).setPc (s.value a))))

/-- `Ret` (R191): an empty stack finishes RETURNED; else the top entry is checked (it stays on a fault), popped and jumped to. -/
def execRet (s : State) : Result :=
  match s.stack with
  | [] => s.finish .returned 0
  | t :: rest => s.checkTarget t (.next ((s.setStack rest).setPc t))

end Sys2Proof.Machine
end

