-- ==== Sys2Proof/Machine/Flags.lean ====
section
/-! DEFINITION. What stands in the place of flags. The CORE has no flags, condition codes or predicate registers (spec/10_state.md
R28): comparisons write 0 or 1 into a register (42_compare.md), and branches test a value for zero (43_jumps.md). -/

namespace Sys2Proof.Machine

/-- The result of a comparison as a cell: exactly 0 or 1 (R140, R141). -/
def truthCell (p : Bool) : Cell := if p then 1 else 0

/-- `value(b) == value(c)`, of the full 16-bit values (R140). -/
def eqResult (b c : Cell) : Cell := truthCell (decide (b = c))

/-- `value(b) > value(c)`, unsigned and strict (R141). -/
def gtResult (b c : Cell) : Cell := truthCell (decide (c.toNat < b.toNat))

/-- The condition of `Jt`: any non-zero 16-bit value is true (R152); `Jf` takes the opposite (R153). -/
def isNonzero (v : Cell) : Bool := decide (v ≠ 0#16)

end Sys2Proof.Machine
end

