-- ==== Sys2Proof/Machine/Compare.lean ====
section
/-! DEFINITION. Eq and Gt (spec/42_compare.md R140, R141). -/

namespace Sys2Proof.Machine

/-- `Eq a b c` (R140). -/
def execEq (a b c : Operand) (s : State) : Result :=
  s.checkDestination a fun i => s.writeResult i (eqResult (s.value b) (s.value c)) 3

/-- `Gt a b c` (R141). -/
def execGt (a b c : Operand) (s : State) : Result :=
  s.checkDestination a fun i => s.writeResult i (gtResult (s.value b) (s.value c)) 3

end Sys2Proof.Machine
end

