-- ==== Sys2Proof/Machine/Io.lean ====
section
/-! DEFINITION. Out and In and the two character channels (spec/47_io.md R200 to R208). -/

namespace Sys2Proof.Machine

/-- `Out a` (R207): a value above 255 raises NonCharacterValue, else the code is emitted. -/
def execOut (a : Operand) (s : State) : Result :=
  if outMax < (s.value a).toNat then s.raise .nonCharacterValue (.cell (s.value a))
  else .next ((s.emit ((s.value a).setWidth 8)).advance 1)

/-- `In a` (R208): the destination before the channel is asked, then the channel's response, of which one is consumed. While no
response is ready the step has not happened: the state is unchanged and pc stays at the `In` (R205, R313;
notes/assumptions/7.md). -/
def execIn (a : Operand) (s : State) : Result :=
  s.checkDestination a fun i =>
    match s.input with
    | [] => .next s
    | .char c :: rest => (s.setInput rest).writeResult i (c.setWidth 16) 1
    | .endOfInput :: rest => (s.setInput rest).finish .inputEof 1
    | .ioError :: rest => (s.setInput rest).raise .ioError .none

end Sys2Proof.Machine
end

