-- ==== Sys2Proof/Machine/Jumps.lean ====
section
/-! DEFINITION. Jmp, Jt, Jf and the transfer they share (spec/43_jumps.md R150 to R153). -/

namespace Sys2Proof.Machine

/-- `transfer(t)` (R150): checked at the transfer, then `pc <- t`. -/
def State.transfer (s : State) (t : Cell) : Result := s.checkTarget t (.next (s.setPc t))

/-- `Jmp a` (R151). -/
def execJmp (a : Operand) (s : State) : Result := s.transfer (s.value a)

/-- `Jt a b` (R152): the target is checked only when the jump is taken. -/
def execJt (a b : Operand) (s : State) : Result :=
  if isNonzero (s.value a) then s.transfer (s.value b) else .next (s.advance 2)

/-- `Jf a b` (R153): the target is checked only when the jump is taken. -/
def execJf (a b : Operand) (s : State) : Result :=
  if isNonzero (s.value a) then .next (s.advance 2) else s.transfer (s.value b)

end Sys2Proof.Machine
end

