-- ==== Sys2Proof/Machine/MachineControl.lean ====
section
/-! DEFINITION. Halt and Noop (spec/40_machine_control.md R106, R107). -/

namespace Sys2Proof.Machine

/-- `Halt` (R106): finish HALTED, pc = npc. -/
def execHalt (s : State) : Result := s.finish .halted 0

/-- `Noop` (R107): no effect, pc = npc. -/
def execNoop (s : State) : Result := .next (s.advance 0)

end Sys2Proof.Machine
end

