-- ==== Sys2Proof/Machine/MemoryAccess.lean ====
section
/-! DEFINITION. Rmem and Wmem (spec/45_memory_access.md R180 to R182). The only addressing mode is absolute. -/

namespace Sys2Proof.Machine

/-- `Rmem a b` (R181): the destination, then the address, then the whole cell unchanged. -/
def execRmem (a b : Operand) (s : State) : Result :=
  s.checkDestination a fun i =>
    s.checkAddress (s.value b) (s.writeResult i (s.mem.readCell (s.value b).toNat) 2)

/-- `Wmem a b` (R182): the address, then all 16 bits of `value(b)` into the cell. -/
def execWmem (a b : Operand) (s : State) : Result :=
  s.checkAddress (s.value a) (.next ((s.storeCell (s.value a).toNat (s.value b)).advance 2))

end Sys2Proof.Machine
end

