-- ==== Sys2Proof/Machine/RegisterStack.lean ====
section
/-! DEFINITION. Set, Push, Pop (spec/41_register_stack.md R120 to R122). -/

namespace Sys2Proof.Machine

/-- `Set a b` (R120): `x[i] <- value(b)`, all 16 bits. -/
def execSet (a b : Operand) (s : State) : Result :=
  s.checkDestination a fun i => s.writeResult i (s.value b) 2

/-- `Push a` (R121): `StackPush(value(a))`. -/
def execPush (a : Operand) (s : State) : Result :=
  s.checkStackRoom (.next ((s.setStack (s.value a :: s.stack)).advance 1))

/-- `Pop a` (R122): the destination, then the empty stack, then `x[i] <- StackPop()`. -/
def execPop (a : Operand) (s : State) : Result :=
  s.checkDestination a fun i =>
    match s.stack with
    | [] => s.raise .stackUnderflow .none
    | v :: rest => (s.setStack rest).writeResult i v 1

end Sys2Proof.Machine
end

