-- ==== Sys2Proof/Machine/Fetch.lean ====
section
/-! DEFINITION. Fetching the cells of the next instruction and turning a decode error into its fault (spec/30_encoding.md R68,
60_exceptions.md R301). -/

namespace Sys2Proof.Machine

/-- The cells from pc on, at most four (R66), as far as memory goes. Each step reads memory afresh (20_memory.md R52). -/
def State.fetchCells (s : State) : List Cell := s.mem.cellsFrom s.config.memCapacity s.pc.toNat 4

/-- The kind and info of the fault for a decode error of the instruction at `pc0` (R301, D9). `opcodeMissing` does not arise: a
step decodes only when pc is below `MEM_CAPACITY`. -/
def decodeFault (pc0 : Cell) : DecodeError → FaultKind × FaultInfo
  | .unknownOpcode w => (.unknownOpcode, .cell w)
  | .invalidOperandEncoding slot w => (.invalidOperandEncoding, .operand slot w)
  | .operandMissing slot => (.instructionPastEndOfMemory, .cell (pc0 + BitVec.ofNat 16 slot.number))
  | .opcodeMissing => (.instructionPastEndOfMemory, .cell pc0)

/-- A decode error raises its fault (R302). -/
def State.raiseDecodeError (s : State) (e : DecodeError) : Result :=
  s.raise (decodeFault s.pc e).1 (decodeFault s.pc e).2

/-- A program placed where the next step fetches: cells from pc on, as far as memory goes. -/
def State.placeCells (s : State) (ws : List Cell) : State :=
  { s with mem := s.mem.storeFrom s.config.memCapacity s.pc.toNat ws }

end Sys2Proof.Machine
end

