-- ==== Sys2Proof/Machine/Step.lean ====
section
/-! DEFINITION. One step of the CORE (spec/40_machine_control.md R100, R105) in the order of 60_exceptions.md R303. -/

namespace Sys2Proof.Machine

/-- `step()` of R100. A run that has ended stays as it is (R105; notes/assumptions/6.md). With pc at `MEM_CAPACITY` the run ends
END_OF_MEMORY and nothing else is written (R305). Otherwise the instruction at pc is decoded (R68) and executed, pc still being
`pc0`: the meaning itself moves it. -/
def step (s : State) : Host.Outcome State Fault Refusal :=
  if s.status ≠ .running then .next s
  else if s.config.memCapacity < s.pc.toNat then .fault .pcBeyondMemory
  else if s.pc.toNat = s.config.memCapacity then .next (s.ended .endOfMemory)
  else
    match decode s.fetchCells with
    | .ok i => exec i s
    | .error e => s.raiseDecodeError e

/-- `s` with the instruction whose bits are `w` (four cells, the bits from `nbits` up 0) where `step` fetches next: in the cells
from pc on, and the CORE RUNNING with no fault record, which the fetch needs (R105). It stands for the image preload
(notes/assumptions/20.md). -/
def State.withFetchWord (s : State) (nbits w : Nat) : State :=
  { s.placeCells (tableCells nbits w) with status := .running, faultRecord := none }

end Sys2Proof.Machine
end

