-- ==== Sys2Proof/Machine/Load.lean ====
section
/-! DEFINITION. The image preload port and the reset procedure with an image (spec/70_reset_and_hazards.md R400 to R406). -/

namespace Sys2Proof.Machine

/-- `load(b)` (R403 to R405): an image of odd length is the fault LoadError, whatever its length (D16); else its cells are written
from address 0 on, those past the end of memory are dropped, and the status is RUNNING (R400). -/
def State.load (s : State) (image : List Byte) : State :=
  if image.length % 2 = 1 then
    s.faulted { kind := .loadError, addr := none, info := .imageLength image.length }
  else
    { s with mem := s.mem.storeFrom s.config.memCapacity 0 (cellsOfBytes image), status := .running }

/-- `reset(image)` (R400) of a CORE built with `c`, whose input channel will answer `responses`. -/
def State.boot (c : Config) (image : List Byte) (responses : List Response) : State :=
  State.load { State.reset with config := c, input := responses } image

end Sys2Proof.Machine
end

