-- ==== Sys2Proof/Safety.lean ====
section
/-! DEFINITION. The terms claims are stated in: the invariant of the machine, the end of a run, and what an instruction leaves
unchanged. -/

namespace Sys2Proof.Machine

/-! ## The end of a run -/

/-- The run has ended: any status but RUNNING is terminal (spec/10_state.md R30). -/
def State.over (s : State) : Bool := decide (s.status ≠ .running)

/-- A successful end: HALTED, RETURNED and INPUT_EOF are (60_exceptions.md R304); END_OF_MEMORY is if the parameter says so (R305, D10);
a fault never is. -/
def State.successful (s : State) : Bool :=
  match s.status with
  | .running => false
  | .halted => true
  | .returned => true
  | .inputEof => true
  | .endOfMemory => s.config.endOfMemoryIsSuccess
  | .faulted => false

/-- A step of the CORE is possible: it is RUNNING, and if its next instruction is an `In` with a register destination the
input channel has a response (40_machine_control.md R105). -/
def State.canStep (s : State) : Bool :=
  decide (s.status = .running) &&
    match decode s.fetchCells with
    | .ok (.in_ (.reg _)) => !s.input.isEmpty
    | _ => true

/-- `k` steps, stopping at the first fault or refusal: the host's `Host.Core.run` of this machine, written over its own types. -/
def run : Nat → State → Result
  | 0, s => .next s
  | k + 1, s =>
    match step s with
    | .next s' => run k s'
    | .fault r => .fault r
    | .refused r => .refused r

/-! ## The invariant -/

/-- What holds of every state a run reaches. -/
structure State.Inv (s : State) : Prop where
  /-- `MEM_CAPACITY` is in 1..32768 (D1). -/
  config : s.config.wf
  /-- Memory has its canonical form. -/
  memWf : s.mem.wf = true
  /-- Memory holds nothing outside the cells 0..`MEM_CAPACITY`-1 (R26). -/
  memWithin : s.mem.within s.config.memCapacity = true
  /-- `pc` is in 0..`MEM_CAPACITY` (R24). -/
  pc : s.pc.toNat ≤ s.config.memCapacity
  /-- The stack is no deeper than its bound, where it has one (R27, D12). -/
  stack : ∀ n, s.config.stackCapacity = some n → s.stack.length ≤ n
  /-- The record is there exactly when the status is FAULTED (R31). -/
  record : s.faultRecord.isSome = decide (s.status = .faulted)
  /-- A record's `addr` is absent exactly for LoadError (R31, R301). -/
  recordAddr : ∀ r, s.faultRecord = some r → (r.addr = none ↔ r.kind = .loadError)

/-- Every register and every stack entry is a Word, 0..32767 (R33). -/
def State.HoldsWords (s : State) : Prop :=
  (∀ i, (s.readReg i).toNat ≤ wordMax) ∧ ∀ v ∈ s.stack, v.toNat ≤ wordMax

/-- Every memory cell is a Word (R33). -/
def State.MemoryHoldsWords (s : State) : Prop :=
  ∀ a, a < s.config.memCapacity → (s.mem.readCell a).toNat ≤ wordMax

/-! ## Frames: `t` after, `s` before -/

/-- Every byte of memory reads as before. -/
def SameMemory (s t : State) : Prop := ∀ b, t.mem.readByte b = s.mem.readByte b

/-- Every byte of memory outside the cell at word address `a` reads as before. -/
def SameMemoryBut (a : Nat) (s t : State) : Prop :=
  ∀ b, b ≠ 2 * a → b ≠ 2 * a + 1 → t.mem.readByte b = s.mem.readByte b

/-- Every register is as before. -/
def SameRegs (s t : State) : Prop := ∀ j, t.readReg j = s.readReg j

/-- Every register but `i` is as before. -/
def SameRegsBut (i : Fin 8) (s t : State) : Prop := ∀ j, j ≠ i → t.readReg j = s.readReg j

/-- Run status, fault record and configuration are as before. -/
def SameRun (s t : State) : Prop :=
  t.status = s.status ∧ t.faultRecord = s.faultRecord ∧ t.config = s.config

/-- Both channels are as before. -/
def SameChannels (s t : State) : Prop := t.input = s.input ∧ t.output = s.output

/-- Only register `i` and pc may differ. -/
def OnlyRegister (i : Fin 8) (s t : State) : Prop :=
  SameRegsBut i s t ∧ SameMemory s t ∧ t.stack = s.stack ∧ SameChannels s t ∧ SameRun s t

/-- Only pc may differ. -/
def OnlyPc (s t : State) : Prop :=
  SameRegs s t ∧ SameMemory s t ∧ t.stack = s.stack ∧ SameChannels s t ∧ SameRun s t

/-- What a claim may say of a step that faults (spec/95_test_vectors.md, 92_eei_decisions.md D7): the status, the record (kind, the
address of the failing instruction, info) and the output already written. -/
def Faulted (kind : FaultKind) (info : FaultInfo) (s t : State) : Prop :=
  t.status = .faulted ∧
    t.faultRecord = some { kind := kind, addr := some s.pc, info := info } ∧ t.output = s.output

end Sys2Proof.Machine
end

