-- ==== Sys2Proof/Certificates/Slice0/Obligations.lean ====
section
/-! DEFINITION. The statements for the provers, one `def Obligations.<Name> : Prop` each; OBLIGATIONS.json lists them with the rule of
spec/ each rests on. A clause about a step that faults reads the status, the fault record and the output only
(spec/95_test_vectors.md, 92_eei_decisions.md D7), but for the one statement that says so in its docstring. -/

open Sys2Proof Sys2Proof.Machine

/-! ## Operands and encoding -/

/-- R102: `value(Lit(n)) = n`, `value(Reg(i)) = x[i]`. -/
def Obligations.ValueResolvesOperands : Prop :=
  ∀ s : State,
    (∀ n : Word, (s.value (.lit n)).toNat = n.toNat) ∧ (∀ i : Fin 8, s.value (.reg i) = s.readReg i)

/-- R64: 0..32767 is a literal, 32768..32775 is register 0..7, any other word is InvalidOperandEncoding. -/
def Obligations.OperandWordsClassify : Prop :=
  ∀ (slot : Slot) (w : Cell),
    (w.toNat ≤ 32767 → ∃ n : Word, classify slot w = .ok (.lit n) ∧ n.toNat = w.toNat) ∧
    (32768 ≤ w.toNat → w.toNat ≤ 32775 →
      ∃ i : Fin 8, classify slot w = .ok (.reg i) ∧ 32768 + i.val = w.toNat) ∧
    (32776 ≤ w.toNat → classify slot w = .error (.invalidOperandEncoding slot w))

/-- R61: a word 0..21 selects the opcode of that number, whatever follows; 22..65535 is UnknownOpcode, whatever follows. -/
def Obligations.OpcodeWordSelects : Prop :=
  ∀ (w : Cell) (ws : List Cell),
    (w.toNat ≤ 21 → (∃ i, i.opcode = w ∧ decode (encode i) = .ok i) ∧
      (∀ i, decode (w :: ws) = .ok i → i.opcode = w) ∧
      (∀ v, decode (w :: ws) ≠ .error (.unknownOpcode v))) ∧
    (22 ≤ w.toNat → decode (w :: ws) = .error (.unknownOpcode w))

/-- R62, R66: the number of operand words is fixed by the opcode word alone, and an instruction is that many words and one. -/
def Obligations.LengthFollowsOpcode : Prop :=
  ∀ i : Instr, arityOfOpcode i.opcode = some i.arity ∧ (encode i).length = 1 + i.arity ∧
    1 ≤ i.length ∧ i.length ≤ 4

/-- Decoding the words of any instruction, whatever follows them, gives it back: no bit of an encoding is dropped. It holds of
every instruction, the ones with a literal destination too. -/
def Obligations.DecodeEncodeAgree : Prop :=
  ∀ (i : Instr) (rest : List Cell), decode (encode i ++ rest) = .ok i

/-- Words that decode are the encoding of what they decode to: each instruction has one spelling. -/
def Obligations.DecodedWordsAreTheEncoding : Prop :=
  ∀ (ws : List Cell) (i : Instr), decode ws = .ok i → ws.take i.length = encode i

/-- A few words written out from R63 and R64, one of each family. -/
def Obligations.WrittenOutWordsDecode : Prop :=
  decode [0] = .ok .halt ∧
  decode [1, 32768, 5] = .ok (.set (.reg 0) (.lit 5)) ∧
  decode [4, 32768, 7, 8] = .ok (.eq (.reg 0) (.lit 7) (.lit 8)) ∧
  decode [7, 32768, 10] = .ok (.jt (.reg 0) (.lit 10)) ∧
  decode [9, 32768, 32768, 32769] = .ok (.add (.reg 0) (.reg 0) (.reg 1)) ∧
  decode [15, 32769, 100] = .ok (.rmem (.reg 1) (.lit 100)) ∧
  decode [17, 7] = .ok (.call (.lit 7)) ∧
  decode [20, 32775] = .ok (.in_ (.reg 7))

/-! ## One instruction each: its encoding, its faults, its effect with its frame -/

/-- Halt ends the run HALTED and writes nothing else. That pc is npc is the spec's inference (R106, D15). -/
def Obligations.HaltEndsTheRun : Prop :=
  encode .halt = [0] ∧
  ∀ s : State, ∃ t, exec .halt s = .next t ∧ t.status = .halted ∧ t.pc = s.pc + 1 ∧
    SameRegs s t ∧ SameMemory s t ∧ t.stack = s.stack ∧ SameChannels s t ∧
    t.faultRecord = s.faultRecord ∧ t.config = s.config

/-- R107: Noop has no effect but pc = npc; one in the last cell leaves pc at `MEM_CAPACITY`, and the next step ends the run
END_OF_MEMORY. -/
def Obligations.NoopOnlyAdvances : Prop :=
  encode .noop = [21] ∧
  ∀ s : State,
    (∃ t, exec .noop s = .next t ∧ t.pc = s.pc + 1 ∧ OnlyPc s t) ∧
    (s.status = .running → s.config.memCapacity ≤ 32768 → s.pc.toNat + 1 = s.config.memCapacity →
      ∃ t u, exec .noop s = .next t ∧ t.pc.toNat = s.config.memCapacity ∧
        step t = .next u ∧ u.status = .endOfMemory)

/-- R120: Set copies all 16 bits of `value(b)`. -/
def Obligations.SetCopiesValue : Prop :=
  ∀ (s : State) (b : Operand),
    (∀ a, encode (.set a b) = [1, a.encode, b.encode]) ∧
    (∀ n, ∃ t, exec (.set (.lit n) b) s = .next t ∧
      Faulted .invalidDestination (.cell (n.setWidth 16)) s t) ∧
    (∀ i, ∃ t, exec (.set (.reg i) b) s = .next t ∧ t.readReg i = s.value b ∧ t.pc = s.pc + 3 ∧
      OnlyRegister i s t)

/-- Push puts all 16 bits of `value(a)` on top; with a bounded stack that is full it faults StackOverflow (the bound is D12). -/
def Obligations.PushStoresOnTop : Prop :=
  ∀ (s : State) (a : Operand),
    encode (.push a) = [2, a.encode] ∧
    (s.config.stackCapacity = some s.stack.length →
      ∃ t, exec (.push a) s = .next t ∧ Faulted .stackOverflow .none s t) ∧
    (s.config.stackCapacity ≠ some s.stack.length →
      ∃ t, exec (.push a) s = .next t ∧ t.stack = s.value a :: s.stack ∧ t.pc = s.pc + 2 ∧
        SameRegs s t ∧ SameMemory s t ∧ SameChannels s t ∧ SameRun s t)

/-- Pop takes the top entry, all 16 bits, into the register; the literal destination (D5) is refused before the empty stack is. -/
def Obligations.PopTakesTop : Prop :=
  ∀ s : State,
    (∀ a, encode (.pop a) = [3, a.encode]) ∧
    (∀ n, ∃ t, exec (.pop (.lit n)) s = .next t ∧
      Faulted .invalidDestination (.cell (n.setWidth 16)) s t) ∧
    (∀ i, s.stack = [] → ∃ t, exec (.pop (.reg i)) s = .next t ∧ Faulted .stackUnderflow .none s t) ∧
    (∀ i v rest, s.stack = v :: rest →
      ∃ t, exec (.pop (.reg i)) s = .next t ∧ t.readReg i = v ∧ t.stack = rest ∧ t.pc = s.pc + 2 ∧
        SameRegsBut i s t ∧ SameMemory s t ∧ SameChannels s t ∧ SameRun s t)

/-- R140: Eq writes 1 if the full 16-bit values are equal, else 0. -/
def Obligations.EqWritesOneOrZero : Prop :=
  ∀ (s : State) (b c : Operand),
    (∀ a, encode (.eq a b c) = [4, a.encode, b.encode, c.encode]) ∧
    (∀ n, ∃ t, exec (.eq (.lit n) b c) s = .next t ∧
      Faulted .invalidDestination (.cell (n.setWidth 16)) s t) ∧
    (∀ i, ∃ t, exec (.eq (.reg i) b c) s = .next t ∧
      (s.value b = s.value c → t.readReg i = 1) ∧ (s.value b ≠ s.value c → t.readReg i = 0) ∧
      t.pc = s.pc + 4 ∧ OnlyRegister i s t)

/-- R141: Gt writes 1 if `value(b) > value(c)`, unsigned and strict, else 0. -/
def Obligations.GtWritesOneOrZero : Prop :=
  ∀ (s : State) (b c : Operand),
    (∀ a, encode (.gt a b c) = [5, a.encode, b.encode, c.encode]) ∧
    (∀ n, ∃ t, exec (.gt (.lit n) b c) s = .next t ∧
      Faulted .invalidDestination (.cell (n.setWidth 16)) s t) ∧
    (∀ i, ∃ t, exec (.gt (.reg i) b c) s = .next t ∧
      ((s.value b).toNat > (s.value c).toNat → t.readReg i = 1) ∧
      ((s.value b).toNat ≤ (s.value c).toNat → t.readReg i = 0) ∧
      t.pc = s.pc + 4 ∧ OnlyRegister i s t)

/-- Jmp goes to an address below `MEM_CAPACITY`; to any other it faults at the transfer (D8). -/
def Obligations.JmpTransfers : Prop :=
  ∀ (s : State) (a : Operand),
    encode (.jmp a) = [6, a.encode] ∧
    ((s.value a).toNat < s.config.memCapacity →
      ∃ t, exec (.jmp a) s = .next t ∧ t.pc = s.value a ∧ OnlyPc s t) ∧
    (s.config.memCapacity ≤ (s.value a).toNat →
      ∃ t, exec (.jmp a) s = .next t ∧ Faulted .jumpOutOfRange (.cell (s.value a)) s t)

/-- Jt jumps if and only if `value(a)` is not 0; the target of a jump not taken is not checked (D8). -/
def Obligations.JtTransfersWhenNonzero : Prop :=
  ∀ (s : State) (a b : Operand),
    encode (.jt a b) = [7, a.encode, b.encode] ∧
    (s.value a = 0#16 → ∃ t, exec (.jt a b) s = .next t ∧ t.pc = s.pc + 3 ∧ OnlyPc s t) ∧
    (s.value a ≠ 0#16 → (s.value b).toNat < s.config.memCapacity →
      ∃ t, exec (.jt a b) s = .next t ∧ t.pc = s.value b ∧ OnlyPc s t) ∧
    (s.value a ≠ 0#16 → s.config.memCapacity ≤ (s.value b).toNat →
      ∃ t, exec (.jt a b) s = .next t ∧ Faulted .jumpOutOfRange (.cell (s.value b)) s t)

/-- Jf jumps if and only if `value(a)` is 0; the target of a jump not taken is not checked (D8). -/
def Obligations.JfTransfersWhenZero : Prop :=
  ∀ (s : State) (a b : Operand),
    encode (.jf a b) = [8, a.encode, b.encode] ∧
    (s.value a ≠ 0#16 → ∃ t, exec (.jf a b) s = .next t ∧ t.pc = s.pc + 3 ∧ OnlyPc s t) ∧
    (s.value a = 0#16 → (s.value b).toNat < s.config.memCapacity →
      ∃ t, exec (.jf a b) s = .next t ∧ t.pc = s.value b ∧ OnlyPc s t) ∧
    (s.value a = 0#16 → s.config.memCapacity ≤ (s.value b).toNat →
      ∃ t, exec (.jf a b) s = .next t ∧ Faulted .jumpOutOfRange (.cell (s.value b)) s t)

/-- R161: Add writes the exact sum modulo 32768. -/
def Obligations.AddWritesSum : Prop :=
  ∀ (s : State) (b c : Operand),
    (∀ a, encode (.add a b c) = [9, a.encode, b.encode, c.encode]) ∧
    (∀ n, ∃ t, exec (.add (.lit n) b c) s = .next t ∧
      Faulted .invalidDestination (.cell (n.setWidth 16)) s t) ∧
    (∀ i, ∃ t, exec (.add (.reg i) b c) s = .next t ∧
      (t.readReg i).toNat = ((s.value b).toNat + (s.value c).toNat) % 32768 ∧
      t.pc = s.pc + 4 ∧ OnlyRegister i s t)

/-- R162: Mult writes the exact product modulo 32768. -/
def Obligations.MultWritesProduct : Prop :=
  ∀ (s : State) (b c : Operand),
    (∀ a, encode (.mult a b c) = [10, a.encode, b.encode, c.encode]) ∧
    (∀ n, ∃ t, exec (.mult (.lit n) b c) s = .next t ∧
      Faulted .invalidDestination (.cell (n.setWidth 16)) s t) ∧
    (∀ i, ∃ t, exec (.mult (.reg i) b c) s = .next t ∧
      (t.readReg i).toNat = ((s.value b).toNat * (s.value c).toNat) % 32768 ∧
      t.pc = s.pc + 4 ∧ OnlyRegister i s t)

/-- Mod writes the remainder of natural numbers, not reduced; a zero divisor faults, after the destination check. That a
faulting Mod leaves its register alone (D7) is in FaultingStepCommitsNothing. -/
def Obligations.ModWritesRemainder : Prop :=
  ∀ (s : State) (b c : Operand),
    (∀ a, encode (.mod a b c) = [11, a.encode, b.encode, c.encode]) ∧
    (∀ n, ∃ t, exec (.mod (.lit n) b c) s = .next t ∧
      Faulted .invalidDestination (.cell (n.setWidth 16)) s t) ∧
    (∀ i, s.value c = 0#16 → ∃ t, exec (.mod (.reg i) b c) s = .next t ∧ Faulted .divisionByZero .none s t) ∧
    (∀ i, s.value c ≠ 0#16 → ∃ t, exec (.mod (.reg i) b c) s = .next t ∧
      (t.readReg i).toNat = (s.value b).toNat % (s.value c).toNat ∧ t.pc = s.pc + 4 ∧ OnlyRegister i s t)

/-- And writes the bitwise and, bit by bit, with bit 15 clear (the mask is D4 for operands above 32767). -/
def Obligations.AndWritesBits : Prop :=
  ∀ (s : State) (b c : Operand),
    (∀ a, encode (.and a b c) = [12, a.encode, b.encode, c.encode]) ∧
    (∀ n, ∃ t, exec (.and (.lit n) b c) s = .next t ∧
      Faulted .invalidDestination (.cell (n.setWidth 16)) s t) ∧
    (∀ i, ∃ t, exec (.and (.reg i) b c) s = .next t ∧
      (∀ k, (t.readReg i).getLsbD k =
        ((s.value b).getLsbD k && (s.value c).getLsbD k && decide (k < 15))) ∧
      t.pc = s.pc + 4 ∧ OnlyRegister i s t)

/-- Or writes the bitwise or, bit by bit, with bit 15 clear (the mask is D4 for operands above 32767). -/
def Obligations.OrWritesBits : Prop :=
  ∀ (s : State) (b c : Operand),
    (∀ a, encode (.or a b c) = [13, a.encode, b.encode, c.encode]) ∧
    (∀ n, ∃ t, exec (.or (.lit n) b c) s = .next t ∧
      Faulted .invalidDestination (.cell (n.setWidth 16)) s t) ∧
    (∀ i, ∃ t, exec (.or (.reg i) b c) s = .next t ∧
      (∀ k, (t.readReg i).getLsbD k =
        (((s.value b).getLsbD k || (s.value c).getLsbD k) && decide (k < 15))) ∧
      t.pc = s.pc + 4 ∧ OnlyRegister i s t)

/-- R166: Not writes the complement masked to 15 bits, which is `32767 - value(b)` for a Word. -/
def Obligations.NotWritesComplement : Prop :=
  ∀ (s : State) (b : Operand),
    (∀ a, encode (.not a b) = [14, a.encode, b.encode]) ∧
    (∀ n, ∃ t, exec (.not (.lit n) b) s = .next t ∧
      Faulted .invalidDestination (.cell (n.setWidth 16)) s t) ∧
    (∀ i, ∃ t, exec (.not (.reg i) b) s = .next t ∧
      (∀ k, (t.readReg i).getLsbD k = (!(s.value b).getLsbD k && decide (k < 15))) ∧
      ((s.value b).toNat ≤ 32767 → (t.readReg i).toNat = 32767 - (s.value b).toNat) ∧
      t.pc = s.pc + 3 ∧ OnlyRegister i s t)

/-- Rmem copies the whole cell at `value(b)`; an address not below `MEM_CAPACITY` faults, after the destination check. That a
literal destination is the fault reported where the address is out of range too is the spec's decision D6
(notes/assumptions/11.md). -/
def Obligations.RmemCopiesCell : Prop :=
  ∀ (s : State) (b : Operand),
    (∀ a, encode (.rmem a b) = [15, a.encode, b.encode]) ∧
    (∀ n, ∃ t, exec (.rmem (.lit n) b) s = .next t ∧
      Faulted .invalidDestination (.cell (n.setWidth 16)) s t) ∧
    (∀ i, s.config.memCapacity ≤ (s.value b).toNat →
      ∃ t, exec (.rmem (.reg i) b) s = .next t ∧ Faulted .memoryOutOfRange (.cell (s.value b)) s t) ∧
    (∀ i, (s.value b).toNat < s.config.memCapacity →
      ∃ t, exec (.rmem (.reg i) b) s = .next t ∧ t.readReg i = s.mem.readCell (s.value b).toNat ∧
        t.pc = s.pc + 3 ∧ OnlyRegister i s t)

/-- R182: Wmem writes all 16 bits of `value(b)` into the cell at `value(a)` and no other byte, and the very next fetch of that cell
reads them; an address not below `MEM_CAPACITY` faults. -/
def Obligations.WmemWritesCell : Prop :=
  ∀ (s : State) (a b : Operand),
    encode (.wmem a b) = [16, a.encode, b.encode] ∧
    (s.config.memCapacity ≤ (s.value a).toNat →
      ∃ t, exec (.wmem a b) s = .next t ∧ Faulted .memoryOutOfRange (.cell (s.value a)) s t) ∧
    ((s.value a).toNat < s.config.memCapacity →
      ∃ t, exec (.wmem a b) s = .next t ∧ t.mem.readCell (s.value a).toNat = s.value b ∧
        SameMemoryBut (s.value a).toNat s t ∧ t.pc = s.pc + 3 ∧
        (∀ k, k < 4 → t.pc.toNat + k = (s.value a).toNat → t.fetchCells[k]? = some (s.value b)) ∧
        SameRegs s t ∧ t.stack = s.stack ∧ SameChannels s t ∧ SameRun s t)

/-- Call pushes the address after its operand word and jumps; the target (checked at the transfer, D8) is refused before the full
stack (D12) is. -/
def Obligations.CallPushesAndTransfers : Prop :=
  ∀ (s : State) (a : Operand),
    encode (.call a) = [17, a.encode] ∧
    (s.config.memCapacity ≤ (s.value a).toNat →
      ∃ t, exec (.call a) s = .next t ∧ Faulted .jumpOutOfRange (.cell (s.value a)) s t) ∧
    ((s.value a).toNat < s.config.memCapacity → s.config.stackCapacity = some s.stack.length →
      ∃ t, exec (.call a) s = .next t ∧ Faulted .stackOverflow .none s t) ∧
    ((s.value a).toNat < s.config.memCapacity → s.config.stackCapacity ≠ some s.stack.length →
      ∃ t, exec (.call a) s = .next t ∧ t.pc = s.value a ∧ t.stack = (s.pc + 2) :: s.stack ∧
        SameRegs s t ∧ SameMemory s t ∧ SameChannels s t ∧ SameRun s t)

/-- Ret pops the top entry and jumps to it; one not below `MEM_CAPACITY` faults (D8); on the empty stack the run ends RETURNED, pc
being npc (D15). -/
def Obligations.RetTransfersToTop : Prop :=
  encode .ret = [18] ∧
  ∀ s : State,
    (s.stack = [] → ∃ t, exec .ret s = .next t ∧ t.status = .returned ∧ t.pc = s.pc + 1 ∧
      SameRegs s t ∧ SameMemory s t ∧ t.stack = [] ∧ SameChannels s t ∧
      t.faultRecord = s.faultRecord ∧ t.config = s.config) ∧
    (∀ v rest, s.stack = v :: rest → v.toNat < s.config.memCapacity →
      ∃ t, exec .ret s = .next t ∧ t.pc = v ∧ t.stack = rest ∧
        SameRegs s t ∧ SameMemory s t ∧ SameChannels s t ∧ SameRun s t) ∧
    (∀ v rest, s.stack = v :: rest → s.config.memCapacity ≤ v.toNat →
      ∃ t, exec .ret s = .next t ∧ Faulted .jumpOutOfRange (.cell v) s t)

/-- R207: Out emits one code 0..255 and faults on any larger value, emitting nothing. -/
def Obligations.OutEmitsCode : Prop :=
  ∀ (s : State) (a : Operand),
    encode (.out a) = [19, a.encode] ∧
    (255 < (s.value a).toNat →
      ∃ t, exec (.out a) s = .next t ∧ Faulted .nonCharacterValue (.cell (s.value a)) s t) ∧
    ((s.value a).toNat ≤ 255 →
      ∃ (t : State) (v : Byte), exec (.out a) s = .next t ∧ v.toNat = (s.value a).toNat ∧
        t.output = s.output ++ [v] ∧ t.input = s.input ∧ t.pc = s.pc + 2 ∧
        SameRegs s t ∧ SameMemory s t ∧ t.stack = s.stack ∧ SameRun s t)

/-- In takes one response: a code goes to the register, EndOfInput ends the run (pc and register by D15), IoError faults; the
literal destination (D5) is refused before the channel is asked; with no response the state is unchanged (the model's next
state for a wait is its own choice, notes/assumptions/7.md). -/
def Obligations.InTakesOneResponse : Prop :=
  ∀ s : State,
    (∀ a, encode (.in_ a) = [20, a.encode]) ∧
    (∀ n, ∃ t, exec (.in_ (.lit n)) s = .next t ∧
      Faulted .invalidDestination (.cell (n.setWidth 16)) s t ∧ t.input = s.input) ∧
    (∀ i (v : Word) rest, s.input = .char v :: rest →
      ∃ t, exec (.in_ (.reg i)) s = .next t ∧ (t.readReg i).toNat = v.toNat ∧ t.input = rest ∧
        t.pc = s.pc + 2 ∧ SameRegsBut i s t ∧ SameMemory s t ∧ t.stack = s.stack ∧
        t.output = s.output ∧ SameRun s t) ∧
    (∀ i rest, s.input = .endOfInput :: rest →
      ∃ t, exec (.in_ (.reg i)) s = .next t ∧ t.status = .inputEof ∧ t.pc = s.pc + 2 ∧
        SameRegs s t ∧ SameMemory s t ∧ t.stack = s.stack ∧ t.output = s.output ∧
        t.faultRecord = s.faultRecord ∧ t.config = s.config) ∧
    (∀ i rest, s.input = .ioError :: rest →
      ∃ t, exec (.in_ (.reg i)) s = .next t ∧ Faulted .ioError .none s t) ∧
    (∀ i, s.input = [] → exec (.in_ (.reg i)) s = .next s)

/-! ## Rules over all instructions -/

/-- The destination rule, for all twelve instructions with a `dst` slot (D5 for Pop and In): a literal there faults before any
check that depends on a value (D6), so no state makes such an instruction complete. -/
def Obligations.LiteralDestinationFaults : Prop :=
  ∀ (i : Instr) (s : State) (n : Word), i.destination = some (.lit n) →
    ∃ t, exec i s = .next t ∧ Faulted .invalidDestination (.cell (n.setWidth 16)) s t ∧ t.input = s.input

/-- A step that faults commits none of its effects. It reads the state after a fault, which is the spec's decision D7 and no word of
the source (notes/assumptions/10.md): no claim about the reference may rest on it. -/
def Obligations.FaultingStepCommitsNothing : Prop :=
  ∀ s t : State, s.status = .running → step s = .next t → t.status = .faulted →
    SameRegs s t ∧ SameMemory s t ∧ t.stack = s.stack ∧ t.output = s.output ∧ t.pc = s.pc ∧
    t.config = s.config ∧ ∃ r, t.faultRecord = some r ∧ r.addr = some s.pc ∧ r.kind ≠ .loadError

/-- A register changes only if it is the register slot a of a register writer names, so at most one changes. -/
def Obligations.OnlyDestinationRegisterChanges : Prop :=
  ∀ (i : Instr) (s t : State) (j : Fin 8), exec i s = .next t → t.readReg j ≠ s.readReg j →
    i.destination = some (.reg j)

/-- A byte of memory changes only by a Wmem, and only inside the cell it names. -/
def Obligations.OnlyWmemChangesMemory : Prop :=
  ∀ (i : Instr) (s t : State) (b : Nat), exec i s = .next t → t.mem.readByte b ≠ s.mem.readByte b →
    ∃ x y, i = .wmem x y ∧ (b = 2 * (s.value x).toNat ∨ b = 2 * (s.value x).toNat + 1) ∧
      (s.value x).toNat < s.config.memCapacity

/-- The stack changes only by Push and Call, which put one entry on top, and by Pop and Ret, which take one from the top. -/
def Obligations.OnlyStackInstructionsChangeStack : Prop :=
  ∀ (i : Instr) (s t : State), exec i s = .next t → t.stack ≠ s.stack →
    ((∃ a, i = .push a ∧ t.stack = s.value a :: s.stack) ∨
     (∃ a, i = .call a ∧ t.stack = (s.pc + 2) :: s.stack) ∨
     (∃ a v, i = .pop a ∧ s.stack = v :: t.stack) ∨
     (∃ v, i = .ret ∧ s.stack = v :: t.stack))

/-- Each step of a run adds at most one code to the output, only an Out adds it, and it is the value of its operand. -/
def Obligations.OnlyOutEmits : Prop :=
  ∀ (i : Instr) (s t : State), exec i s = .next t →
    t.output = s.output ∨
    ∃ (a : Operand) (v : Byte), i = .out a ∧ v.toNat = (s.value a).toNat ∧ t.output = s.output ++ [v]

/-- Only an In takes a response from the input channel, and it takes exactly the first. -/
def Obligations.OnlyInTakesResponses : Prop :=
  ∀ (i : Instr) (s t : State), exec i s = .next t →
    t.input = s.input ∨ ∃ (r : Fin 8) (x : Response), i = .in_ (.reg r) ∧ s.input = x :: t.input

/-- pc after an instruction that raises no fault and does not wait is `pc0 + 1 + arity`, or, for Jmp, Jt, Jf, Call and Ret alone,
a target below `MEM_CAPACITY` (the check at the transfer is D8, notes/assumptions/12.md). That pc is npc also after an instruction
that ends the run (Halt, Ret on the empty stack, In on EndOfInput) is the spec's decision D15 (notes/assumptions/17.md), which no
claim about the reference should read. -/
def Obligations.OnlyTransfersSetPc : Prop :=
  ∀ (i : Instr) (s t : State), exec i s = .next t → t.status ≠ .faulted →
    t.pc = s.pc + BitVec.ofNat 16 (1 + i.arity) ∨
    (t.pc.toNat < s.config.memCapacity ∧
      (i = .ret ∨ ∃ a b, i = .jmp a ∨ i = .jt a b ∨ i = .jf a b ∨ i = .call a)) ∨
    (∃ r, i = .in_ (.reg r) ∧ s.input = [] ∧ t = s)

/-! ## The step -/

/-- When the cells at pc decode to i, a step of a running CORE is i executed, pc still being `pc0`. -/
def Obligations.StepRunsDecodedInstruction : Prop :=
  ∀ (s : State) (i : Instr), s.status = .running → s.pc.toNat < s.config.memCapacity →
    decode s.fetchCells = .ok i → step s = exec i s

/-- When the words of i stand in memory from pc on, below `MEM_CAPACITY`, a step of a running CORE executes i. -/
def Obligations.StepRunsInstructionInMemory : Prop :=
  ∀ (s : State) (i : Instr), s.status = .running → s.pc.toNat + i.length ≤ s.config.memCapacity →
    (∀ k w, (encode i)[k]? = some w → s.mem.readCell (s.pc.toNat + k) = w) →
    step s = exec i s

/-- An opcode word 22..65535 faults UnknownOpcode, whatever follows it. -/
def Obligations.UnknownOpcodeFaults : Prop :=
  ∀ s : State, s.status = .running → s.pc.toNat < s.config.memCapacity →
    22 ≤ (s.mem.readCell s.pc.toNat).toNat →
    ∃ t, step s = .next t ∧ Faulted .unknownOpcode (.cell (s.mem.readCell s.pc.toNat)) s t

/-- The first operand word that is neither a literal nor a register faults InvalidOperandEncoding with its slot (the order is the
source's; that it precedes the destination check is D6). -/
def Obligations.InvalidOperandWordFaults : Prop :=
  ∀ (s : State) (n : Nat) (slot : Slot), s.status = .running →
    arityOfOpcode (s.mem.readCell s.pc.toNat) = some n → slot.number ≤ n →
    s.pc.toNat + slot.number < s.config.memCapacity →
    32776 ≤ (s.mem.readCell (s.pc.toNat + slot.number)).toNat →
    (∀ k : Slot, k.number < slot.number → (s.mem.readCell (s.pc.toNat + k.number)).toNat ≤ 32775) →
    ∃ t, step s = .next t ∧
      Faulted .invalidOperandEncoding (.operand slot (s.mem.readCell (s.pc.toNat + slot.number))) s t

/-- An operand word that would lie past the last cell faults InstructionPastEndOfMemory with that address (the spec's decision
D9), unless an earlier operand word is invalid. -/
def Obligations.OperandPastEndFaults : Prop :=
  ∀ (s : State) (n : Nat) (slot : Slot), s.status = .running → s.pc.toNat < s.config.memCapacity →
    arityOfOpcode (s.mem.readCell s.pc.toNat) = some n → slot.number ≤ n →
    s.config.memCapacity = s.pc.toNat + slot.number →
    (∀ k : Slot, k.number < slot.number → (s.mem.readCell (s.pc.toNat + k.number)).toNat ≤ 32775) →
    ∃ t, step s = .next t ∧
      Faulted .instructionPastEndOfMemory (.cell (s.pc + BitVec.ofNat 16 slot.number)) s t

/-- A running CORE whose pc is `MEM_CAPACITY` ends END_OF_MEMORY and writes nothing else (D15). -/
def Obligations.FetchAtEndOfMemoryEnds : Prop :=
  ∀ s : State, s.status = .running → s.pc.toNat = s.config.memCapacity →
    ∃ t, step s = .next t ∧ t.status = .endOfMemory ∧ t.pc = s.pc ∧
      SameRegs s t ∧ SameMemory s t ∧ t.stack = s.stack ∧ SameChannels s t ∧
      t.faultRecord = s.faultRecord ∧ t.config = s.config

/-- Where the spec takes no step (the run has ended, or an In has no response) the state does not change. That the model
answers an unchanged next state there is its own choice (notes/assumptions/6.md and 7.md). -/
def Obligations.NoStepLeavesStateUnchanged : Prop :=
  ∀ s : State, s.pc.toNat ≤ s.config.memCapacity → s.canStep = false → step s = .next s

/-- A run ends only in the ways R304 and R302 list: Halt, Ret on the empty stack, In on EndOfInput, a fetch at the end of memory, or
a fault, which leaves its record. -/
def Obligations.RunEndsOnlyAsListed : Prop :=
  ∀ s t : State, s.status = .running → step s = .next t →
    match t.status with
    | .running => True
    | .halted => decode s.fetchCells = .ok .halt
    | .returned => decode s.fetchCells = .ok .ret ∧ s.stack = []
    | .inputEof => ∃ r rest, decode s.fetchCells = .ok (.in_ (.reg r)) ∧ s.input = .endOfInput :: rest
    | .endOfMemory => s.pc.toNat = s.config.memCapacity
    | .faulted => ∃ r, t.faultRecord = some r

/-! ## Memory -/

/-- A cell written is read back whole, and no byte outside it changes; canonical memories that read alike are the same data. -/
def Obligations.MemoryReadsWhatWasWritten : Prop :=
  (∀ (m : Memory) (a : Nat) (v : Cell), (m.writeCell a v).readCell a = v ∧
    ∀ b, b ≠ 2 * a → b ≠ 2 * a + 1 → (m.writeCell a v).readByte b = m.readByte b) ∧
  (∀ m m' : Memory, m.wf = true → m'.wf = true → (∀ b, m.readByte b = m'.readByte b) → m = m')

/-- A Wmem that writes the opcode word of an instruction without operands right after itself: the next step executes that
instruction, whatever the cell held before. -/
def Obligations.StoredOpcodeRunsNext : Prop :=
  ∀ (s : State) (a b : Operand) (i : Instr), s.status = .running → decode s.fetchCells = .ok (.wmem a b) →
    (s.value a).toNat = s.pc.toNat + 3 → s.pc.toNat + 3 < s.config.memCapacity →
    i.arity = 0 → s.value b = i.opcode →
    ∃ t, step s = .next t ∧ step t = exec i t

/-! ## Two instructions -/

/-- Push v, then Pop r: r is v and the stack is what it was. -/
def Obligations.PushThenPopRoundTrip : Prop :=
  ∀ (s : State) (a : Operand) (i : Fin 8), s.config.stackCapacity ≠ some s.stack.length →
    ∃ t u, exec (.push a) s = .next t ∧ exec (.pop (.reg i)) t = .next u ∧
      u.readReg i = s.value a ∧ u.stack = s.stack

/-- A Ret with the stack as the Call left it goes to the instruction immediately after the Call and restores the stack. -/
def Obligations.RetReturnsAfterCall : Prop :=
  ∀ (s t u : State) (a : Operand), exec (.call a) s = .next t → t.status ≠ .faulted →
    u.stack = t.stack → u.config = s.config → s.pc.toNat + 2 < s.config.memCapacity →
    s.config.memCapacity ≤ 32768 →
    ∃ v, exec .ret u = .next v ∧ v.pc.toNat = s.pc.toNat + 2 ∧ v.stack = s.stack

/-- Adding 32768 - k subtracts k modulo 32768: the ISA's subtraction (the spec's inference in R160). -/
def Obligations.AddingComplementSubtracts : Prop :=
  ∀ (s : State) (i : Fin 8) (b c : Operand) (k : Nat), k ≤ 32768 → (s.value c).toNat = 32768 - k →
    ∃ t, exec (.add (.reg i) b c) s = .next t ∧
      ((t.readReg i).toNat : Int) = (((s.value b).toNat : Int) - k) % 32768

/-! ## Reset and load -/

/-- What reset with an image leaves: registers 0, the stack empty, pc 0 (R34). An image of even length: its words in order from
address 0, those past the end dropped, every other cell 0, RUNNING and no record (R403, R405). An image of odd length: FAULTED with
LoadError, no address (R31), the length as info (R301, R404); that an odd image longer than memory is one of these is the spec's
decision D16 (notes/assumptions/22.md). -/
def Obligations.ResetLoadsImage : Prop :=
  ∀ (c : Config) (image : List Byte) (responses : List Response),
    (∀ i, (State.boot c image responses).readReg i = 0) ∧
    (State.boot c image responses).stack = [] ∧ (State.boot c image responses).pc = 0 ∧
    (image.length % 2 = 0 →
      (∀ k lo hi, k < c.memCapacity → image[2 * k]? = some lo → image[2 * k + 1]? = some hi →
        (((State.boot c image responses).mem.readCell k).toNat = lo.toNat + 256 * hi.toNat)) ∧
      (∀ k, image.length ≤ 2 * k ∨ c.memCapacity ≤ k → (State.boot c image responses).mem.readCell k = 0) ∧
      (State.boot c image responses).status = .running ∧
      (State.boot c image responses).faultRecord = none) ∧
    (image.length % 2 = 1 →
      (State.boot c image responses).status = .faulted ∧
      (State.boot c image responses).faultRecord =
        some { kind := .loadError, addr := none, info := .imageLength image.length })

/-- After a failed load no step changes anything. -/
def Obligations.FailedLoadNeverRuns : Prop :=
  ∀ (c : Config) (image : List Byte) (responses : List Response) (k : Nat), image.length % 2 = 1 →
    run k (State.boot c image responses) = .next (State.boot c image responses)

/-- The invariant holds after reset, with whatever image and well-formed configuration. -/
def Obligations.ResetMeetsInvariant : Prop :=
  State.reset.Inv ∧
  ∀ (c : Config) (image : List Byte) (responses : List Response), c.wf → (State.boot c image responses).Inv

/-! ## Headlines -/

/-- Every step from a state with the invariant gives a state with the invariant, and there always is a next state: the model
stops nowhere a run can reach. Where the run has ended or an In waits the spec takes no step; that the model answers an unchanged
next state there is its own choice (notes/assumptions/6.md, 7.md), and so is its one stop, `pcBeyondMemory`, which the invariant
rules out (notes/assumptions/19.md). That pc is legal after a fault and after the end of a run is D7 and D15 (10.md, 17.md). -/
def Obligations.StepKeepsInvariant : Prop :=
  ∀ s : State, s.Inv → ∃ t, step s = .next t ∧ t.Inv

/-- However many steps, the configuration stays, what was emitted stays emitted, and an ended run stays as it is. -/
def Obligations.RunsOnlyGrowOutput : Prop :=
  ∀ (k : Nat) (s t : State), run k s = .next t →
    t.config = s.config ∧ (∃ o, t.output = s.output ++ o) ∧ (s.over = true → t = s)

/-- R33's value range: registers and the stack keep to 0..32767 over every step but an Rmem of a cell above 32767, on a memory of
at most 32767 cells (with 32768, a Call in the last two cells pushes 32768; notes/assumptions/24.md). -/
def Obligations.WordRangeIsKept : Prop :=
  ∀ s t : State, s.config.memCapacity ≤ 32767 → s.HoldsWords →
    (∀ r b, decode s.fetchCells = .ok (.rmem (.reg r) b) → (s.value b).toNat < s.config.memCapacity →
      (s.mem.readCell (s.value b).toNat).toNat ≤ 32767) →
    step s = .next t → t.HoldsWords

/-- If no memory cell, register or stack entry is above 32767, none ever is, on a memory of at most 32767 cells. -/
def Obligations.WordMemoryIsKept : Prop :=
  ∀ s t : State, s.config.memCapacity ≤ 32767 → s.HoldsWords → s.MemoryHoldsWords →
    step s = .next t → t.HoldsWords ∧ t.MemoryHoldsWords

/-- Nothing the CORE does reads the output back: with other codes emitted before, a step does the same and adds the same code. -/
def Obligations.OutputIsNeverReadBack : Prop :=
  ∀ (s t : State) (before : List Byte), step s = .next t →
    step { s with output := before ++ s.output } = .next { t with output := before ++ t.output }

/-- No instruction reads or writes a stack entry below the top, or the depth of an unbounded stack: with more entries below, a step
does the same, as long as the stack it sees is not empty. -/
def Obligations.EntriesBelowTopAreUntouched : Prop :=
  ∀ (s t : State) (below : List Cell), s.config.stackCapacity = none → s.stack ≠ [] → step s = .next t →
    step { s with stack := s.stack ++ below } = .next { t with stack := t.stack ++ below }
end

