-- ==== Sys2Proof/Laws/Decode.lean ====
section
/-! SUPPORT. One lemma for each function of the decoder and the encoder (spec/30_encoding.md R60 to R68). -/

namespace Sys2Proof

theorem classify_lit (slot : Slot) (w : Cell) (h : w.toNat ≤ 32767) :
    classify slot w = .ok (.lit (w.extractLsb' 0 15)) := by
  have h15 : w.getLsbD 15 = false := by
    rw [BitVec.getLsbD, Nat.testBit_lt_two_pow (by omega)]
  rw [classify, if_pos h15]

theorem classify_invalid (slot : Slot) (w : Cell) (h : 32776 ≤ w.toNat) :
    classify slot w = .error (.invalidOperandEncoding slot w) := by
  have h15 : ¬ w.getLsbD 15 = false := by
    intro hf
    have : w.toNat < 2 ^ 15 := by
      apply Nat.lt_pow_two_of_testBit
      intro i hi
      by_cases h16 : i = 15
      · subst h16; exact hf
      · exact Nat.testBit_lt_two_pow (Nat.lt_of_lt_of_le w.isLt (Nat.pow_le_pow_right (by decide) (by omega)))
    omega
  have h3 : ¬ w.extractLsb' 3 13 = 0b1000000000000#13 := by
    intro he
    have := congrArg BitVec.toNat he
    simp [BitVec.extractLsb'_toNat, Nat.shiftRight_eq_div_pow] at this
    omega
  rw [classify, if_neg h15, if_neg h3]

theorem classify_encode (slot : Slot) (o : Operand) : classify slot o.encode = .ok o := by
  cases o with
  | lit n =>
    have hn := n.isLt
    rw [classify_lit]
    · congr 2
      apply BitVec.eq_of_toNat_eq
      simp [Operand.encode, BitVec.extractLsb'_toNat]
      omega
    · simp [Operand.encode]; omega
  | reg i => fin_cases i <;> rfl

/-- A word that classifies is the operand's own word. -/
theorem encode_of_classify {slot : Slot} {w : Cell} {o : Operand} (h : classify slot w = .ok o) : o.encode = w := by
  unfold classify at h
  split at h
  · rename_i h15
    simp only [Except.ok.injEq] at h; subst h
    apply BitVec.eq_of_toNat_eq
    have : w.toNat < 2 ^ 15 := by
      apply Nat.lt_pow_two_of_testBit
      intro i hi
      by_cases h16 : i = 15
      · subst h16; exact h15
      · exact Nat.testBit_lt_two_pow (Nat.lt_of_lt_of_le w.isLt (Nat.pow_le_pow_right (by decide) (by omega)))
    simp [Operand.encode, BitVec.extractLsb'_toNat]
    omega
  · split at h
    · rename_i h3
      simp only [Except.ok.injEq] at h; subst h
      have h3' := congrArg BitVec.toNat h3
      simp [BitVec.extractLsb'_toNat, Nat.shiftRight_eq_div_pow] at h3'
      apply BitVec.eq_of_toNat_eq
      have hw := w.isLt
      simp [Operand.encode, regBase, BitVec.extractLsb'_toNat]
      omega
    · simp at h

/-- A word that is no literal and no register is the only kind that does not classify. -/
theorem classify_ok_of_le (slot : Slot) (w : Cell) (h : w.toNat ≤ 32775) : ∃ o, classify slot w = .ok o := by
  by_cases hl : w.toNat ≤ 32767
  · exact ⟨_, classify_lit slot w hl⟩
  · refine ⟨.reg ⟨w.toNat - 32768, by omega⟩, ?_⟩
    have : w = (Operand.reg ⟨w.toNat - 32768, by omega⟩).encode := by
      apply BitVec.eq_of_toNat_eq
      simp [Operand.encode, regBase]
      omega
    conv => lhs; rw [this]
    exact classify_encode slot _

theorem readOperand_encode (slot : Slot) (o : Operand) (rest : List Cell) :
    readOperand slot (o.encode :: rest) = .ok (o, rest) := by
  simp [readOperand, classify_encode]

/-- What reading an operand word takes: the first cell, which is the operand's own word. -/
theorem readOperand_ok {slot : Slot} {ws rest : List Cell} {o : Operand}
    (h : readOperand slot ws = .ok (o, rest)) : ws = o.encode :: rest := by
  cases ws with
  | nil => simp [readOperand] at h
  | cons w ws =>
    simp only [readOperand] at h
    split at h
    · rename_i o' hc
      simp only [Except.ok.injEq, Prod.mk.injEq] at h
      rw [← h.1, ← h.2, encode_of_classify hc]
    · simp at h

theorem decodeF1_ok {mk : Operand → Instr} {ws : List Cell} {i : Instr} (h : decodeF1 mk ws = .ok i) :
    ∃ a rest, ws = a.encode :: rest ∧ i = mk a := by
  unfold decodeF1 at h
  split at h
  · simp at h
  · rename_i a rest ha
    simp only [Except.ok.injEq] at h
    exact ⟨a, rest, readOperand_ok ha, h.symm⟩

theorem decodeF2_ok {mk : Operand → Operand → Instr} {ws : List Cell} {i : Instr} (h : decodeF2 mk ws = .ok i) :
    ∃ a b rest, ws = a.encode :: b.encode :: rest ∧ i = mk a b := by
  unfold decodeF2 at h
  split at h
  · simp at h
  · rename_i a ws₁ ha
    split at h
    · simp at h
    · rename_i b rest hb
      simp only [Except.ok.injEq] at h
      exact ⟨a, b, rest, by rw [readOperand_ok ha, readOperand_ok hb], h.symm⟩

theorem decodeF3_ok {mk : Operand → Operand → Operand → Instr} {ws : List Cell} {i : Instr}
    (h : decodeF3 mk ws = .ok i) :
    ∃ a b c rest, ws = a.encode :: b.encode :: c.encode :: rest ∧ i = mk a b c := by
  unfold decodeF3 at h
  split at h
  · simp at h
  · rename_i a ws₁ ha
    split at h
    · simp at h
    · rename_i b ws₂ hb
      split at h
      · simp at h
      · rename_i c rest hc
        simp only [Except.ok.injEq] at h
        exact ⟨a, b, c, rest, by rw [readOperand_ok ha, readOperand_ok hb, readOperand_ok hc], h.symm⟩

/-- An opcode word decodes by the format of its arity, whatever follows (R62, R66). -/
theorem decode_of_arity {w : Cell} {n : Nat} (h : arityOfOpcode w = some n) :
    (n = 0 ∧ ∃ i, ∀ ws, decode (w :: ws) = .ok i) ∨
    (n = 1 ∧ ∃ mk, ∀ ws, decode (w :: ws) = decodeF1 mk ws) ∨
    (n = 2 ∧ ∃ mk, ∀ ws, decode (w :: ws) = decodeF2 mk ws) ∨
    (n = 3 ∧ ∃ mk, ∀ ws, decode (w :: ws) = decodeF3 mk ws) := by
  have hw : w = BitVec.ofNat 16 w.toNat := by simp
  have hlt : w.toNat ≤ 21 := by
    by_contra hc
    unfold arityOfOpcode at h
    split at h <;> first | omega | simp at h
  generalize w.toNat = k at hw hlt
  subst hw
  interval_cases k <;> simp [arityOfOpcode] at h <;> subst h <;>
    first
    | exact .inl ⟨rfl, _, fun _ => rfl⟩
    | exact .inr (.inl ⟨rfl, _, fun _ => rfl⟩)
    | exact .inr (.inr (.inl ⟨rfl, _, fun _ => rfl⟩))
    | exact .inr (.inr (.inr ⟨rfl, _, fun _ => rfl⟩))

theorem arityOfOpcode_le {w : Cell} {n : Nat} (h : arityOfOpcode w = some n) : n ≤ 3 := by
  rcases decode_of_arity h with ⟨rfl, _⟩ | ⟨rfl, _⟩ | ⟨rfl, _⟩ | ⟨rfl, _⟩ <;> omega

/-- The cells of bytes, one at a time (R403). -/
theorem cellsOfBytes_getElem? (bytes : List Byte) :
    ∀ (k : Nat) (lo hi : Byte), bytes[2 * k]? = some lo → bytes[2 * k + 1]? = some hi →
      (cellsOfBytes bytes)[k]? = some (hi ++ lo) := by
  induction bytes using cellsOfBytes.induct with
  | case1 lo' hi' rest ih =>
    intro k lo hi hlo hhi
    cases k with
    | zero =>
      simp at hlo hhi
      simp [cellsOfBytes, hlo, hhi]
    | succ k =>
      rw [cellsOfBytes, List.getElem?_cons_succ]
      apply ih
      · simpa [show 2 * (k + 1) = 2 * k + 1 + 1 by omega] using hlo
      · simpa [show 2 * (k + 1) + 1 = 2 * k + 1 + 1 + 1 by omega] using hhi
  | case2 bs hbs =>
    intro k lo hi hlo hhi
    match bs with
    | [] => simp at hlo
    | [b] => simp at hhi
    | b :: b' :: bs' => exact absurd rfl (hbs b b' bs')

theorem cellsOfBytes_length (bytes : List Byte) : (cellsOfBytes bytes).length = bytes.length / 2 := by
  induction bytes using cellsOfBytes.induct with
  | case1 lo hi rest ih => simp [cellsOfBytes, ih]; omega
  | case2 bs hbs =>
    match bs with
    | [] => rfl
    | [b] => simp [cellsOfBytes]
    | b :: b' :: bs' => exact absurd rfl (hbs b b' bs')

/-- A cell of two bytes is low + 256 * high (R42). -/
theorem toNat_cell_of_bytes (hi lo : Byte) : (hi ++ lo : Cell).toNat = lo.toNat + 256 * hi.toNat := by
  have h := lo.isLt
  rw [BitVec.toNat_append, Nat.shiftLeft_eq, ← Nat.shiftLeft_eq, ← Nat.shiftLeft_add_eq_or_of_lt h, Nat.shiftLeft_eq]
  omega

end Sys2Proof
end

