-- ==== Sys2Proof/Laws/Memory.lean ====
section
/-! SUPPORT. Memory: a write is read back and leaves every other byte alone, and every operation keeps the canonical form. -/

namespace Sys2Proof.Machine

@[simp] theorem Memory.readByte_nil (a : Nat) : Memory.readByte [] a = Memory.unlisted := rfl

theorem Memory.readByte_insertByte (m : Memory) (a b : Nat) (v : Byte) (h : ∀ c ∈ m, c.1 ≠ a) :
    (Memory.insertByte m a v).readByte b = if a = b then v else m.readByte b := by
  induction m with
  | nil => simp [Memory.insertByte, Memory.readByte]
  | cons c m ih =>
    have hc : c.1 ≠ a := h c (by simp)
    have ih := ih fun d hd => h d (by simp [hd])
    by_cases hlt : a < c.1
    · simp [Memory.insertByte, Memory.readByte, hlt]
    · simp only [Memory.insertByte, hlt, if_false, Memory.readByte, ih]
      by_cases hcb : c.1 = b
      · have hab : ¬ a = b := by omega
        simp [hcb, hab]
      · simp [hcb]

theorem Memory.readByte_filter (m : Memory) (a b : Nat) (h : b ≠ a) :
    Memory.readByte (m.filter fun c => decide (c.1 ≠ a)) b = m.readByte b := by
  induction m with
  | nil => rfl
  | cons c m ih =>
    by_cases hca : c.1 = a
    · have hcb : c.1 ≠ b := by omega
      rw [List.filter_cons_of_neg (by simp [hca]), ih]
      simp [Memory.readByte, hcb]
    · rw [List.filter_cons_of_pos (by simp [hca])]
      simp only [Memory.readByte, ih]

theorem Memory.readByte_absent (m : Memory) (a : Nat) (h : ∀ c ∈ m, c.1 ≠ a) :
    m.readByte a = Memory.unlisted := by
  induction m with
  | nil => rfl
  | cons c m ih =>
    have hc : c.1 ≠ a := h c (by simp)
    simp [Memory.readByte, hc, ih fun d hd => h d (by simp [hd])]

theorem Memory.filter_absent (m : Memory) (a : Nat) : ∀ c ∈ m.filter (fun c => decide (c.1 ≠ a)), c.1 ≠ a := by
  intro c hc
  simpa using (List.mem_filter.mp hc).2

/-- Everything a byte write does to reading. -/
theorem Memory.readByte_writeByte (m : Memory) (a b : Nat) (v : Byte) :
    (m.writeByte a v).readByte b = if a = b then v else m.readByte b := by
  unfold Memory.writeByte
  have hne := Memory.filter_absent m a
  by_cases hab : a = b
  · subst hab
    by_cases hv : v = Memory.unlisted
    · simp only [hv, if_true]
      exact Memory.readByte_absent _ _ hne
    · simp only [hv, if_false]
      rw [Memory.readByte_insertByte _ _ _ _ hne]; simp
  · by_cases hv : v = Memory.unlisted
    · simp only [hv, if_true, hab, if_false]
      exact Memory.readByte_filter m a b (by omega)
    · simp only [hv, if_false]
      rw [Memory.readByte_insertByte _ _ _ _ hne]
      simp only [hab, if_false]
      exact Memory.readByte_filter m a b (by omega)

/-- Everything a cell write does to reading bytes. -/
theorem Memory.readByte_writeCell (m : Memory) (a b : Nat) (v : Cell) :
    (m.writeCell a v).readByte b =
      if b = 2 * a + 1 then v.extractLsb' 8 8 else if b = 2 * a then v.extractLsb' 0 8 else m.readByte b := by
  simp only [Memory.writeCell, Memory.readByte_writeByte, eq_comm]

theorem Cell.bytes_append (v : Cell) : v.extractLsb' 8 8 ++ v.extractLsb' 0 8 = v := by
  ext i hi
  simp only [BitVec.getElem_append, BitVec.getElem_extractLsb']
  by_cases h : i < 8
  · simp [h, BitVec.getLsbD_eq_getElem hi]
  · have : 8 + (i - 8) = i := by omega
    simp [h, this, BitVec.getLsbD_eq_getElem hi]

/-- A written cell is read back (R49). -/
@[simp] theorem Memory.readCell_writeCell_same (m : Memory) (a : Nat) (v : Cell) :
    (m.writeCell a v).readCell a = v := by
  simp only [Memory.readCell, Memory.readByte_writeCell]
  simp [Cell.bytes_append]

/-- A write changes only the cell written (R46). -/
theorem Memory.readCell_writeCell_ne (m : Memory) (a b : Nat) (v : Cell) (h : b ≠ a) :
    (m.writeCell a v).readCell b = m.readCell b := by
  have h1 : ¬ 2 * b + 1 = 2 * a + 1 := by omega
  have h2 : ¬ 2 * b + 1 = 2 * a := by omega
  have h3 : ¬ 2 * b = 2 * a + 1 := by omega
  have h4 : ¬ 2 * b = 2 * a := by omega
  simp only [Memory.readCell, Memory.readByte_writeCell, h1, h2, h3, h4, if_false]

theorem Memory.readCell_writeCell (m : Memory) (a b : Nat) (v : Cell) :
    (m.writeCell a v).readCell b = if b = a then v else m.readCell b := by
  by_cases h : b = a
  · subst h; simp
  · simp [h, Memory.readCell_writeCell_ne m a b v h]

@[simp] theorem Memory.readCell_nil (a : Nat) : Memory.readCell [] a = 0 := by
  simp [Memory.readCell, Memory.unlisted]

/-! ## The canonical form -/

theorem Memory.wfFrom_cons (lo : Nat) (c : Host.Cell) (m : Memory) :
    Memory.wfFrom lo (c :: m) = true ↔
      lo ≤ c.1 ∧ c.2 ≠ Memory.unlisted ∧ Memory.wfFrom (c.1 + 1) m = true := by
  simp [Memory.wfFrom, and_assoc]

theorem Memory.wfFrom_mono {lo lo' : Nat} (h : lo ≤ lo') {m : Memory} (hm : Memory.wfFrom lo' m = true) :
    Memory.wfFrom lo m = true := by
  cases m with
  | nil => rfl
  | cons c m =>
    rw [Memory.wfFrom_cons] at hm ⊢
    exact ⟨by omega, hm.2⟩

theorem Memory.wfFrom_filter (p : Host.Cell → Bool) {m : Memory} :
    ∀ {lo : Nat}, Memory.wfFrom lo m = true → Memory.wfFrom lo (m.filter p) = true := by
  induction m with
  | nil => intro lo h; exact h
  | cons c m ih =>
    intro lo h
    rw [Memory.wfFrom_cons] at h
    by_cases hp : p c = true
    · rw [List.filter_cons_of_pos hp, Memory.wfFrom_cons]
      exact ⟨h.1, h.2.1, ih h.2.2⟩
    · rw [List.filter_cons_of_neg hp]
      exact Memory.wfFrom_mono (by omega) (ih h.2.2)

theorem Memory.wfFrom_insertByte {a : Nat} {v : Byte} (hv : v ≠ Memory.unlisted) {m : Memory} :
    ∀ {lo : Nat}, lo ≤ a → (∀ c ∈ m, c.1 ≠ a) → Memory.wfFrom lo m = true →
      Memory.wfFrom lo (Memory.insertByte m a v) = true := by
  induction m with
  | nil => intro lo hlo _ _; simp [Memory.insertByte, Memory.wfFrom, hlo, hv]
  | cons c m ih =>
    intro lo hlo hne h
    rw [Memory.wfFrom_cons] at h
    have hc : c.1 ≠ a := hne c (by simp)
    by_cases hlt : a < c.1
    · simp only [Memory.insertByte, hlt, if_true]
      rw [Memory.wfFrom_cons, Memory.wfFrom_cons]
      exact ⟨hlo, hv, by omega, h.2⟩
    · simp only [Memory.insertByte, hlt, if_false]
      rw [Memory.wfFrom_cons]
      exact ⟨h.1, h.2.1, ih (by omega) (fun d hd => hne d (by simp [hd])) h.2.2⟩

/-- A byte write keeps the canonical form. -/
theorem Memory.wf_writeByte {m : Memory} (a : Nat) (v : Byte) (h : m.wf = true) :
    (m.writeByte a v).wf = true := by
  unfold Memory.writeByte
  by_cases hv : v = Memory.unlisted
  · simp only [hv, if_true]
    exact Memory.wfFrom_filter _ h
  · simp only [hv, if_false]
    exact Memory.wfFrom_insertByte hv (Nat.zero_le _) (Memory.filter_absent m a) (Memory.wfFrom_filter _ h)

/-- A cell write keeps the canonical form. -/
theorem Memory.wf_writeCell {m : Memory} (a : Nat) (v : Cell) (h : m.wf = true) :
    (m.writeCell a v).wf = true :=
  Memory.wf_writeByte _ _ (Memory.wf_writeByte _ _ h)

/-- Placing cells keeps the canonical form. -/
theorem Memory.wf_storeFrom {limit : Nat} (ws : List Cell) :
    ∀ {m : Memory} {a : Nat}, m.wf = true → (m.storeFrom limit a ws).wf = true := by
  induction ws with
  | nil => intro m a h; exact h
  | cons w ws ih =>
    intro m a h
    simp only [Memory.storeFrom]
    apply ih
    split
    · exact Memory.wf_writeCell _ _ h
    · exact h

/-- In canonical form an unlisted byte is never listed, so a memory that reads as nothing everywhere is the empty list. -/
theorem Memory.readByte_below {m : Memory} :
    ∀ {lo a : Nat}, Memory.wfFrom lo m = true → a < lo → m.readByte a = Memory.unlisted := by
  induction m with
  | nil => intro _ _ _ _; rfl
  | cons c m ih =>
    intro lo a h ha
    rw [Memory.wfFrom_cons] at h
    have : c.1 ≠ a := by omega
    simp [Memory.readByte, this, ih h.2.2 (by omega : a < c.1 + 1)]

/-- Equal memories are equal data: two canonical memories that read alike are the same list. -/
theorem Memory.wfFrom_ext {m : Memory} :
    ∀ {m' : Memory} {lo : Nat}, Memory.wfFrom lo m = true → Memory.wfFrom lo m' = true →
      (∀ a, m.readByte a = m'.readByte a) → m = m' := by
  induction m with
  | nil =>
    intro m' lo _ h' heq
    cases m' with
    | nil => rfl
    | cons c m' =>
      rw [Memory.wfFrom_cons] at h'
      have := heq c.1
      simp [Memory.readByte] at this
      exact absurd this.symm h'.2.1
  | cons c m ih =>
    intro m' lo h h' heq
    rw [Memory.wfFrom_cons] at h
    cases m' with
    | nil =>
      have := heq c.1
      simp [Memory.readByte] at this
      exact absurd this h.2.1
    | cons d m' =>
      rw [Memory.wfFrom_cons] at h'
      have hc := heq c.1
      have hd := heq d.1
      simp only [Memory.readByte, if_true] at hc hd
      have hcd : c.1 = d.1 := by
        rcases Nat.lt_trichotomy c.1 d.1 with hlt | he | hlt
        · have hne : ¬ d.1 = c.1 := by omega
          simp only [hne, if_false] at hc
          rw [Memory.readByte_below h'.2.2 (by omega)] at hc
          exact absurd hc h.2.1
        · exact he
        · have hne : ¬ c.1 = d.1 := by omega
          simp only [hne, if_false] at hd
          rw [Memory.readByte_below h.2.2 (by omega)] at hd
          exact absurd hd.symm h'.2.1
      have hval : c.2 = d.2 := by simpa [hcd] using hc
      have hcd' : c = d := Prod.ext hcd hval
      subst hcd'
      congr 1
      refine ih h.2.2 h'.2.2 fun a => ?_
      by_cases hca : c.1 = a
      · subst hca
        rw [Memory.readByte_below h.2.2 (by omega), Memory.readByte_below h'.2.2 (by omega)]
      · simpa [Memory.readByte, hca] using heq a

/-! ## Nothing outside the cells that exist -/

theorem Memory.within_iff (n : Nat) (m : Memory) : m.within n = true ↔ ∀ c ∈ m, c.1 < 2 * n := by
  simp [Memory.within]

theorem Memory.mem_insertByte {m : Memory} {a : Nat} {v : Byte} {c : Host.Cell} :
    c ∈ Memory.insertByte m a v → c = (a, v) ∨ c ∈ m := by
  induction m with
  | nil => simp [Memory.insertByte]
  | cons d m ih =>
    by_cases h : a < d.1
    · simp [Memory.insertByte, h]
    · simp only [Memory.insertByte, h, if_false, List.mem_cons]
      rintro (hc | hc)
      · exact .inr (.inl hc)
      · rcases ih hc with hc | hc
        · exact .inl hc
        · exact .inr (.inr hc)

theorem Memory.within_writeByte {n : Nat} {m : Memory} {a : Nat} (v : Byte) (ha : a < 2 * n)
    (h : m.within n = true) : (m.writeByte a v).within n = true := by
  rw [Memory.within_iff] at h ⊢
  intro c hc
  unfold Memory.writeByte at hc
  split at hc
  · exact h c (List.mem_filter.mp hc).1
  · rcases Memory.mem_insertByte hc with hc | hc
    · subst hc; exact ha
    · exact h c (List.mem_filter.mp hc).1

theorem Memory.within_writeCell {n : Nat} {m : Memory} {a : Nat} (v : Cell) (ha : a < n)
    (h : m.within n = true) : (m.writeCell a v).within n = true :=
  Memory.within_writeByte _ (by omega) (Memory.within_writeByte _ (by omega) h)

theorem Memory.within_storeFrom {limit : Nat} (ws : List Cell) :
    ∀ {m : Memory} {a : Nat}, m.within limit = true → (m.storeFrom limit a ws).within limit = true := by
  induction ws with
  | nil => intro m a h; exact h
  | cons w ws ih =>
    intro m a h
    simp only [Memory.storeFrom]
    apply ih
    split
    · exact Memory.within_writeCell _ ‹_› h
    · exact h

/-! ## Placing and fetching several cells -/

/-- Everything placing cells does to reading one. -/
theorem Memory.readCell_storeFrom {limit : Nat} (ws : List Cell) :
    ∀ (m : Memory) (a b : Nat), (m.storeFrom limit a ws).readCell b =
      if a ≤ b ∧ b < limit then (ws[b - a]?).getD (m.readCell b) else m.readCell b := by
  induction ws with
  | nil => intro m a b; simp [Memory.storeFrom]
  | cons w ws ih =>
    intro m a b
    rw [Memory.storeFrom, ih]
    rcases Nat.lt_trichotomy b a with hlt | he | hgt
    · have h1 : ¬ (a + 1 ≤ b ∧ b < limit) := by omega
      have h2 : ¬ (a ≤ b ∧ b < limit) := by omega
      rw [if_neg h1, if_neg h2]
      split
      · exact Memory.readCell_writeCell_ne _ _ _ _ (by omega)
      · rfl
    · subst he
      have h1 : ¬ (b + 1 ≤ b ∧ b < limit) := by omega
      rw [if_neg h1]
      by_cases hl : b < limit <;> simp [hl]
    · have e : b - a = (b - (a + 1)) + 1 := by omega
      have hr : (if a < limit then m.writeCell a w else m).readCell b = m.readCell b := by
        split
        · exact Memory.readCell_writeCell_ne _ _ _ _ (by omega)
        · rfl
      rw [hr, e, List.getElem?_cons_succ]
      simp only [show a + 1 ≤ b ↔ a ≤ b by omega]

theorem Memory.cellsFrom_of_le (m : Memory) (limit a n : Nat) (h : limit ≤ a) : m.cellsFrom limit a n = [] := by
  cases n with
  | zero => rfl
  | succ n => simp [Memory.cellsFrom, show ¬ a < limit by omega]

theorem Memory.cellsFrom_succ (m : Memory) (limit a n : Nat) (h : a < limit) :
    m.cellsFrom limit a (n + 1) = m.readCell a :: m.cellsFrom limit (a + 1) n := by
  simp [Memory.cellsFrom, h]

/-- The k-th cell fetched is the memory cell at that address. -/
theorem Memory.cellsFrom_getElem? (m : Memory) (limit : Nat) :
    ∀ (n a k : Nat), k < n → a + k < limit → (m.cellsFrom limit a n)[k]? = some (m.readCell (a + k)) := by
  intro n
  induction n with
  | zero => intro a k h; omega
  | succ n ih =>
    intro a k hk hl
    rw [Memory.cellsFrom_succ _ _ _ _ (by omega)]
    cases k with
    | zero => simp
    | succ k =>
      rw [List.getElem?_cons_succ, ih (a + 1) k (by omega) (by omega)]
      congr 2; omega

theorem Memory.cellsFrom_length (m : Memory) (limit : Nat) :
    ∀ (n a : Nat), (m.cellsFrom limit a n).length = min n (limit - a) := by
  intro n
  induction n with
  | zero => intro a; simp [Memory.cellsFrom]
  | succ n ih =>
    intro a
    by_cases h : a < limit
    · rw [Memory.cellsFrom_succ _ _ _ _ h, List.length_cons, ih]; omega
    · rw [Memory.cellsFrom_of_le _ _ _ _ (by omega)]; simp; omega

end Sys2Proof.Machine
end

