-- ==== Sys2Proof/Laws/Regs.lean ====
section
/-! SUPPORT. The register file: a write is read back, and leaves every other register alone (spec/10_state.md R22, R23). -/

namespace Sys2Proof.Machine

@[simp] theorem Regs.get_set_same (r : Regs) (i : Fin 8) (v : Cell) : (r.set i v).get i = v := by
  fin_cases i <;> rfl

theorem Regs.get_set_ne (r : Regs) (i j : Fin 8) (v : Cell) (h : j ≠ i) : (r.set i v).get j = r.get j := by
  fin_cases i <;> fin_cases j <;> first | rfl | exact absurd rfl h

@[simp] theorem Regs.get_zero (i : Fin 8) : Regs.zero.get i = 0 := by
  fin_cases i <;> rfl

end Sys2Proof.Machine
end

