-- ==== Sys2Proof/Laws/State.lean ====
section
/-! SUPPORT. One lemma per field per update of State, so that no proof unfolds a record update. -/

namespace Sys2Proof.Machine

@[simp] theorem State.writeReg_config (s : State) (i : Fin 8) (v : Cell) : (s.writeReg i v).config = s.config := rfl
@[simp] theorem State.writeReg_mem (s : State) (i : Fin 8) (v : Cell) : (s.writeReg i v).mem = s.mem := rfl
@[simp] theorem State.writeReg_regs (s : State) (i : Fin 8) (v : Cell) : (s.writeReg i v).regs = s.regs.set i v := rfl
@[simp] theorem State.writeReg_stack (s : State) (i : Fin 8) (v : Cell) : (s.writeReg i v).stack = s.stack := rfl
@[simp] theorem State.writeReg_pc (s : State) (i : Fin 8) (v : Cell) : (s.writeReg i v).pc = s.pc := rfl
@[simp] theorem State.writeReg_status (s : State) (i : Fin 8) (v : Cell) : (s.writeReg i v).status = s.status := rfl
@[simp] theorem State.writeReg_faultRecord (s : State) (i : Fin 8) (v : Cell) : (s.writeReg i v).faultRecord = s.faultRecord := rfl
@[simp] theorem State.writeReg_input (s : State) (i : Fin 8) (v : Cell) : (s.writeReg i v).input = s.input := rfl
@[simp] theorem State.writeReg_output (s : State) (i : Fin 8) (v : Cell) : (s.writeReg i v).output = s.output := rfl

@[simp] theorem State.storeCell_config (s : State) (a : Nat) (v : Cell) : (s.storeCell a v).config = s.config := rfl
@[simp] theorem State.storeCell_mem (s : State) (a : Nat) (v : Cell) : (s.storeCell a v).mem = s.mem.writeCell a v := rfl
@[simp] theorem State.storeCell_regs (s : State) (a : Nat) (v : Cell) : (s.storeCell a v).regs = s.regs := rfl
@[simp] theorem State.storeCell_stack (s : State) (a : Nat) (v : Cell) : (s.storeCell a v).stack = s.stack := rfl
@[simp] theorem State.storeCell_pc (s : State) (a : Nat) (v : Cell) : (s.storeCell a v).pc = s.pc := rfl
@[simp] theorem State.storeCell_status (s : State) (a : Nat) (v : Cell) : (s.storeCell a v).status = s.status := rfl
@[simp] theorem State.storeCell_faultRecord (s : State) (a : Nat) (v : Cell) : (s.storeCell a v).faultRecord = s.faultRecord := rfl
@[simp] theorem State.storeCell_input (s : State) (a : Nat) (v : Cell) : (s.storeCell a v).input = s.input := rfl
@[simp] theorem State.storeCell_output (s : State) (a : Nat) (v : Cell) : (s.storeCell a v).output = s.output := rfl

@[simp] theorem State.setStack_config (s : State) (k : List Cell) : (s.setStack k).config = s.config := rfl
@[simp] theorem State.setStack_mem (s : State) (k : List Cell) : (s.setStack k).mem = s.mem := rfl
@[simp] theorem State.setStack_regs (s : State) (k : List Cell) : (s.setStack k).regs = s.regs := rfl
@[simp] theorem State.setStack_stack (s : State) (k : List Cell) : (s.setStack k).stack = k := rfl
@[simp] theorem State.setStack_pc (s : State) (k : List Cell) : (s.setStack k).pc = s.pc := rfl
@[simp] theorem State.setStack_status (s : State) (k : List Cell) : (s.setStack k).status = s.status := rfl
@[simp] theorem State.setStack_faultRecord (s : State) (k : List Cell) : (s.setStack k).faultRecord = s.faultRecord := rfl
@[simp] theorem State.setStack_input (s : State) (k : List Cell) : (s.setStack k).input = s.input := rfl
@[simp] theorem State.setStack_output (s : State) (k : List Cell) : (s.setStack k).output = s.output := rfl

@[simp] theorem State.setPc_config (s : State) (t : Cell) : (s.setPc t).config = s.config := rfl
@[simp] theorem State.setPc_mem (s : State) (t : Cell) : (s.setPc t).mem = s.mem := rfl
@[simp] theorem State.setPc_regs (s : State) (t : Cell) : (s.setPc t).regs = s.regs := rfl
@[simp] theorem State.setPc_stack (s : State) (t : Cell) : (s.setPc t).stack = s.stack := rfl
@[simp] theorem State.setPc_pc (s : State) (t : Cell) : (s.setPc t).pc = t := rfl
@[simp] theorem State.setPc_status (s : State) (t : Cell) : (s.setPc t).status = s.status := rfl
@[simp] theorem State.setPc_faultRecord (s : State) (t : Cell) : (s.setPc t).faultRecord = s.faultRecord := rfl
@[simp] theorem State.setPc_input (s : State) (t : Cell) : (s.setPc t).input = s.input := rfl
@[simp] theorem State.setPc_output (s : State) (t : Cell) : (s.setPc t).output = s.output := rfl

@[simp] theorem State.advance_config (s : State) (n : Nat) : (s.advance n).config = s.config := rfl
@[simp] theorem State.advance_mem (s : State) (n : Nat) : (s.advance n).mem = s.mem := rfl
@[simp] theorem State.advance_regs (s : State) (n : Nat) : (s.advance n).regs = s.regs := rfl
@[simp] theorem State.advance_stack (s : State) (n : Nat) : (s.advance n).stack = s.stack := rfl
@[simp] theorem State.advance_pc (s : State) (n : Nat) : (s.advance n).pc = s.npc n := rfl
@[simp] theorem State.advance_status (s : State) (n : Nat) : (s.advance n).status = s.status := rfl
@[simp] theorem State.advance_faultRecord (s : State) (n : Nat) : (s.advance n).faultRecord = s.faultRecord := rfl
@[simp] theorem State.advance_input (s : State) (n : Nat) : (s.advance n).input = s.input := rfl
@[simp] theorem State.advance_output (s : State) (n : Nat) : (s.advance n).output = s.output := rfl

@[simp] theorem State.emit_config (s : State) (v : Byte) : (s.emit v).config = s.config := rfl
@[simp] theorem State.emit_mem (s : State) (v : Byte) : (s.emit v).mem = s.mem := rfl
@[simp] theorem State.emit_regs (s : State) (v : Byte) : (s.emit v).regs = s.regs := rfl
@[simp] theorem State.emit_stack (s : State) (v : Byte) : (s.emit v).stack = s.stack := rfl
@[simp] theorem State.emit_pc (s : State) (v : Byte) : (s.emit v).pc = s.pc := rfl
@[simp] theorem State.emit_status (s : State) (v : Byte) : (s.emit v).status = s.status := rfl
@[simp] theorem State.emit_faultRecord (s : State) (v : Byte) : (s.emit v).faultRecord = s.faultRecord := rfl
@[simp] theorem State.emit_input (s : State) (v : Byte) : (s.emit v).input = s.input := rfl
@[simp] theorem State.emit_output (s : State) (v : Byte) : (s.emit v).output = s.output ++ [v] := rfl

@[simp] theorem State.setInput_config (s : State) (rs : List Response) : (s.setInput rs).config = s.config := rfl
@[simp] theorem State.setInput_mem (s : State) (rs : List Response) : (s.setInput rs).mem = s.mem := rfl
@[simp] theorem State.setInput_regs (s : State) (rs : List Response) : (s.setInput rs).regs = s.regs := rfl
@[simp] theorem State.setInput_stack (s : State) (rs : List Response) : (s.setInput rs).stack = s.stack := rfl
@[simp] theorem State.setInput_pc (s : State) (rs : List Response) : (s.setInput rs).pc = s.pc := rfl
@[simp] theorem State.setInput_status (s : State) (rs : List Response) : (s.setInput rs).status = s.status := rfl
@[simp] theorem State.setInput_faultRecord (s : State) (rs : List Response) : (s.setInput rs).faultRecord = s.faultRecord := rfl
@[simp] theorem State.setInput_input (s : State) (rs : List Response) : (s.setInput rs).input = rs := rfl
@[simp] theorem State.setInput_output (s : State) (rs : List Response) : (s.setInput rs).output = s.output := rfl

@[simp] theorem State.ended_config (s : State) (o : Status) : (s.ended o).config = s.config := rfl
@[simp] theorem State.ended_mem (s : State) (o : Status) : (s.ended o).mem = s.mem := rfl
@[simp] theorem State.ended_regs (s : State) (o : Status) : (s.ended o).regs = s.regs := rfl
@[simp] theorem State.ended_stack (s : State) (o : Status) : (s.ended o).stack = s.stack := rfl
@[simp] theorem State.ended_pc (s : State) (o : Status) : (s.ended o).pc = s.pc := rfl
@[simp] theorem State.ended_status (s : State) (o : Status) : (s.ended o).status = o := rfl
@[simp] theorem State.ended_faultRecord (s : State) (o : Status) : (s.ended o).faultRecord = s.faultRecord := rfl
@[simp] theorem State.ended_input (s : State) (o : Status) : (s.ended o).input = s.input := rfl
@[simp] theorem State.ended_output (s : State) (o : Status) : (s.ended o).output = s.output := rfl

@[simp] theorem State.faulted_config (s : State) (r : FaultRecord) : (s.faulted r).config = s.config := rfl
@[simp] theorem State.faulted_mem (s : State) (r : FaultRecord) : (s.faulted r).mem = s.mem := rfl
@[simp] theorem State.faulted_regs (s : State) (r : FaultRecord) : (s.faulted r).regs = s.regs := rfl
@[simp] theorem State.faulted_stack (s : State) (r : FaultRecord) : (s.faulted r).stack = s.stack := rfl
@[simp] theorem State.faulted_pc (s : State) (r : FaultRecord) : (s.faulted r).pc = s.pc := rfl
@[simp] theorem State.faulted_status (s : State) (r : FaultRecord) : (s.faulted r).status = .faulted := rfl
@[simp] theorem State.faulted_faultRecord (s : State) (r : FaultRecord) : (s.faulted r).faultRecord = some r := rfl
@[simp] theorem State.faulted_input (s : State) (r : FaultRecord) : (s.faulted r).input = s.input := rfl
@[simp] theorem State.faulted_output (s : State) (r : FaultRecord) : (s.faulted r).output = s.output := rfl

@[simp] theorem State.placeCells_config (s : State) (ws : List Cell) : (s.placeCells ws).config = s.config := rfl
@[simp] theorem State.placeCells_mem (s : State) (ws : List Cell) : (s.placeCells ws).mem = s.mem.storeFrom s.config.memCapacity s.pc.toNat ws := rfl
@[simp] theorem State.placeCells_regs (s : State) (ws : List Cell) : (s.placeCells ws).regs = s.regs := rfl
@[simp] theorem State.placeCells_stack (s : State) (ws : List Cell) : (s.placeCells ws).stack = s.stack := rfl
@[simp] theorem State.placeCells_pc (s : State) (ws : List Cell) : (s.placeCells ws).pc = s.pc := rfl
@[simp] theorem State.placeCells_status (s : State) (ws : List Cell) : (s.placeCells ws).status = s.status := rfl
@[simp] theorem State.placeCells_faultRecord (s : State) (ws : List Cell) : (s.placeCells ws).faultRecord = s.faultRecord := rfl
@[simp] theorem State.placeCells_input (s : State) (ws : List Cell) : (s.placeCells ws).input = s.input := rfl
@[simp] theorem State.placeCells_output (s : State) (ws : List Cell) : (s.placeCells ws).output = s.output := rfl

/-! Registers read through `readReg`. -/

@[simp] theorem State.storeCell_readReg (s : State) (a : Nat) (v : Cell) (j : Fin 8) : (s.storeCell a v).readReg j = s.readReg j := rfl
@[simp] theorem State.setStack_readReg (s : State) (k : List Cell) (j : Fin 8) : (s.setStack k).readReg j = s.readReg j := rfl
@[simp] theorem State.setPc_readReg (s : State) (t : Cell) (j : Fin 8) : (s.setPc t).readReg j = s.readReg j := rfl
@[simp] theorem State.advance_readReg (s : State) (n : Nat) (j : Fin 8) : (s.advance n).readReg j = s.readReg j := rfl
@[simp] theorem State.emit_readReg (s : State) (v : Byte) (j : Fin 8) : (s.emit v).readReg j = s.readReg j := rfl
@[simp] theorem State.setInput_readReg (s : State) (rs : List Response) (j : Fin 8) : (s.setInput rs).readReg j = s.readReg j := rfl
@[simp] theorem State.ended_readReg (s : State) (o : Status) (j : Fin 8) : (s.ended o).readReg j = s.readReg j := rfl
@[simp] theorem State.faulted_readReg (s : State) (r : FaultRecord) (j : Fin 8) : (s.faulted r).readReg j = s.readReg j := rfl
@[simp] theorem State.placeCells_readReg (s : State) (ws : List Cell) (j : Fin 8) : (s.placeCells ws).readReg j = s.readReg j := rfl

@[simp] theorem State.writeReg_readReg_same (s : State) (i : Fin 8) (v : Cell) : (s.writeReg i v).readReg i = v :=
  Regs.get_set_same s.regs i v

theorem State.writeReg_readReg_ne (s : State) (i j : Fin 8) (v : Cell) (h : j ≠ i) :
    (s.writeReg i v).readReg j = s.readReg j :=
  Regs.get_set_ne s.regs i j v h

theorem State.readReg_writeReg (s : State) (i j : Fin 8) (v : Cell) :
    (s.writeReg i v).readReg j = if j = i then v else s.readReg j := by
  by_cases h : j = i
  · subst h; simp
  · simp [State.writeReg_readReg_ne, h]

end Sys2Proof.Machine
end

