-- ==== Sys2Proof/Laws/Ops.lean ====
section
/-! SUPPORT. One lemma for each shared operation: everything it can do when it answers a next state. -/

namespace Sys2Proof.Machine

/-! ## Operands -/

@[simp] theorem State.value_lit (s : State) (n : Word) : s.value (.lit n) = n.setWidth 16 := rfl

@[simp] theorem State.value_reg (s : State) (i : Fin 8) : s.value (.reg i) = s.readReg i := rfl

/-- A source operand depends on the registers alone. -/
theorem State.value_congr {s t : State} (h : t.regs = s.regs) (o : Operand) : t.value o = s.value o := by
  cases o with
  | lit n => rfl
  | reg i => simp [State.readReg, h]

/-! ## Faults, ends and checks -/

/-- The state a fault leaves (R302). -/
theorem State.raise_eq (s : State) (kind : FaultKind) (info : FaultInfo) :
    s.raise kind info = .next (s.faulted { kind := kind, addr := some s.pc, info := info }) := rfl

theorem State.finish_eq (s : State) (o : Status) (n : Nat) : s.finish o n = .next ((s.ended o).advance n) := rfl

theorem State.raise_next_iff {s t : State} {kind : FaultKind} {info : FaultInfo} :
    s.raise kind info = .next t ↔ t = s.faulted { kind := kind, addr := some s.pc, info := info } := by
  rw [State.raise_eq, Host.Outcome.next.injEq, eq_comm]

@[simp] theorem State.checkDestination_lit (s : State) (n : Word) (go : Fin 8 → Result) :
    s.checkDestination (.lit n) go = s.raise .invalidDestination (.cell (n.setWidth 16)) := rfl

@[simp] theorem State.checkDestination_reg (s : State) (i : Fin 8) (go : Fin 8 → Result) :
    s.checkDestination (.reg i) go = go i := rfl

theorem State.checkDestination_next {s t : State} {a : Operand} {go : Fin 8 → Result}
    (h : s.checkDestination a go = .next t) :
    (∃ n, a = .lit n ∧
      t = s.faulted { kind := .invalidDestination, addr := some s.pc, info := .cell (n.setWidth 16) }) ∨
    (∃ i, a = .reg i ∧ go i = .next t) := by
  cases a with
  | lit n => exact .inl ⟨n, rfl, State.raise_next_iff.mp h⟩
  | reg i => exact .inr ⟨i, rfl, h⟩

theorem State.checkTarget_ok {s : State} {v : Cell} {go : Result} (h : v.toNat < s.config.memCapacity) :
    s.checkTarget v go = go := by
  rw [State.checkTarget, if_neg (by omega)]

theorem State.checkTarget_fault {s : State} {v : Cell} {go : Result} (h : s.config.memCapacity ≤ v.toNat) :
    s.checkTarget v go = s.raise .jumpOutOfRange (.cell v) := by
  rw [State.checkTarget, if_pos h]

theorem State.checkTarget_next {s t : State} {v : Cell} {go : Result} (h : s.checkTarget v go = .next t) :
    (s.config.memCapacity ≤ v.toNat ∧
      t = s.faulted { kind := .jumpOutOfRange, addr := some s.pc, info := .cell v }) ∨
    (v.toNat < s.config.memCapacity ∧ go = .next t) := by
  rcases Nat.lt_or_ge v.toNat s.config.memCapacity with hv | hv
  · exact .inr ⟨hv, by rwa [State.checkTarget_ok hv] at h⟩
  · exact .inl ⟨hv, by rwa [State.checkTarget_fault hv, State.raise_next_iff] at h⟩

theorem State.checkAddress_ok {s : State} {v : Cell} {go : Result} (h : v.toNat < s.config.memCapacity) :
    s.checkAddress v go = go := by
  rw [State.checkAddress, if_neg (by omega)]

theorem State.checkAddress_fault {s : State} {v : Cell} {go : Result} (h : s.config.memCapacity ≤ v.toNat) :
    s.checkAddress v go = s.raise .memoryOutOfRange (.cell v) := by
  rw [State.checkAddress, if_pos h]

theorem State.checkAddress_next {s t : State} {v : Cell} {go : Result} (h : s.checkAddress v go = .next t) :
    (s.config.memCapacity ≤ v.toNat ∧
      t = s.faulted { kind := .memoryOutOfRange, addr := some s.pc, info := .cell v }) ∨
    (v.toNat < s.config.memCapacity ∧ go = .next t) := by
  rcases Nat.lt_or_ge v.toNat s.config.memCapacity with hv | hv
  · exact .inr ⟨hv, by rwa [State.checkAddress_ok hv] at h⟩
  · exact .inl ⟨hv, by rwa [State.checkAddress_fault hv, State.raise_next_iff] at h⟩

/-- The stack is full exactly when its bound is its depth (R121). -/
theorem State.stackFull_iff (s : State) : s.stackFull = true ↔ s.config.stackCapacity = some s.stack.length := by
  unfold State.stackFull
  split
  · rename_i h; simp [h]
  · rename_i n h; simp [h, eq_comm]

theorem State.checkStackRoom_ok {s : State} {go : Result} (h : s.config.stackCapacity ≠ some s.stack.length) :
    s.checkStackRoom go = go := by
  rw [State.checkStackRoom, if_neg (fun hf => h (s.stackFull_iff.mp hf))]

theorem State.checkStackRoom_fault {s : State} {go : Result} (h : s.config.stackCapacity = some s.stack.length) :
    s.checkStackRoom go = s.raise .stackOverflow .none := by
  rw [State.checkStackRoom, if_pos (s.stackFull_iff.mpr h)]

theorem State.checkStackRoom_next {s t : State} {go : Result} (h : s.checkStackRoom go = .next t) :
    (s.config.stackCapacity = some s.stack.length ∧
      t = s.faulted { kind := .stackOverflow, addr := some s.pc, info := .none }) ∨
    (s.config.stackCapacity ≠ some s.stack.length ∧ go = .next t) := by
  by_cases hs : s.config.stackCapacity = some s.stack.length
  · exact .inl ⟨hs, by rwa [State.checkStackRoom_fault hs, State.raise_next_iff] at h⟩
  · exact .inr ⟨hs, by rwa [State.checkStackRoom_ok hs] at h⟩

theorem State.transfer_next {s t : State} {v : Cell} (h : s.transfer v = .next t) :
    (s.config.memCapacity ≤ v.toNat ∧
      t = s.faulted { kind := .jumpOutOfRange, addr := some s.pc, info := .cell v }) ∨
    (v.toNat < s.config.memCapacity ∧ t = s.setPc v) := by
  rcases State.checkTarget_next h with h | ⟨hv, h⟩
  · exact .inl h
  · exact .inr ⟨hv, (Host.Outcome.next.inj h).symm⟩

/-! ## Results -/

theorem toNat_truthCell_le (p : Bool) : (truthCell p).toNat ≤ wordMax := by cases p <;> decide

theorem isNonzero_iff (v : Cell) : isNonzero v = true ↔ v ≠ 0#16 := by simp [isNonzero]

theorem toNat_addResult (b c : Cell) : (addResult b c).toNat = (b.toNat + c.toNat) % 32768 := by
  simp [addResult, modulus]; omega

theorem toNat_multResult (b c : Cell) : (multResult b c).toNat = (b.toNat * c.toNat) % 32768 := by
  simp [multResult, modulus]; omega

theorem toNat_modResult (b c : Cell) : (modResult b c).toNat = b.toNat % c.toNat := by
  have h : b.toNat % c.toNat ≤ b.toNat := Nat.mod_le _ _
  have := b.isLt
  simp [modResult]; omega

/-- The mask keeps bits 0..14. -/
theorem getLsbD_wordMask (k : Nat) : wordMask.getLsbD k = decide (k < 15) := by
  by_cases h : k < 16
  · revert h; revert k; decide
  · have : ¬ k < 15 := by omega
    rw [BitVec.getLsbD_of_ge _ _ (by omega)]; simp [this]

theorem getLsbD_notResult (v : Cell) (k : Nat) :
    (notResult v).getLsbD k = (!v.getLsbD k && decide (k < 15)) := by
  simp only [notResult, BitVec.getLsbD_and, BitVec.getLsbD_not, getLsbD_wordMask]
  by_cases h : k < 15
  · simp [h, show k < 16 by omega]
  · simp [h]

/-- On a Word, the complement is `32767 - v` (R166). -/
theorem toNat_notResult {v : Cell} (h : v.toNat ≤ 32767) : (notResult v).toNat = 32767 - v.toNat := by
  have hm : (~~~v &&& wordMask).toNat = (~~~v).toNat % 2 ^ 15 := by
    rw [BitVec.toNat_and]; exact Nat.and_two_pow_sub_one_eq_mod _ 15
  rw [notResult, hm, BitVec.toNat_not]
  omega

/-- A masked value is a Word. -/
theorem toNat_masked_le (v : Cell) : (v &&& wordMask).toNat ≤ wordMax := by
  rw [BitVec.toNat_and]
  exact Nat.and_le_right

end Sys2Proof.Machine
end

