-- ==== Sys2Proof/Laws/Exec.lean ====
section
/-! SUPPORT. One inversion lemma per instruction: everything `exec` can do with it when it answers a next state. Proofs cite these
and never unfold a meaning. -/

namespace Sys2Proof.Machine

/-- The state after an instruction whose destination is the literal `n` (R103). -/
def State.badDestination (s : State) (n : Word) : State :=
  s.faulted { kind := .invalidDestination, addr := some s.pc, info := .cell (n.setWidth 16) }

/-- A register writer whose value needs no check: it faults on a literal destination or writes. -/
theorem State.writer_next {s t : State} {a : Operand} {v : Cell} {n : Nat}
    (h : (s.checkDestination a fun i => s.writeResult i v n) = .next t) :
    (∃ k, a = .lit k ∧ t = s.badDestination k) ∨ (∃ i, a = .reg i ∧ t = (s.writeReg i v).advance n) := by
  rcases State.checkDestination_next h with h | ⟨i, ha, h⟩
  · exact .inl h
  · exact .inr ⟨i, ha, (Host.Outcome.next.inj h).symm⟩

theorem exec_halt_next {s t : State} (h : exec .halt s = .next t) : t = (s.ended .halted).advance 0 :=
  (Host.Outcome.next.inj h).symm

theorem exec_noop_next {s t : State} (h : exec .noop s = .next t) : t = s.advance 0 :=
  (Host.Outcome.next.inj h).symm

theorem exec_set_next {s t : State} {a b : Operand} (h : exec (.set a b) s = .next t) :
    (∃ k, a = .lit k ∧ t = s.badDestination k) ∨
    (∃ i, a = .reg i ∧ t = (s.writeReg i (s.value b)).advance 2) := State.writer_next h

theorem exec_eq_next {s t : State} {a b c : Operand} (h : exec (.eq a b c) s = .next t) :
    (∃ k, a = .lit k ∧ t = s.badDestination k) ∨
    (∃ i, a = .reg i ∧ t = (s.writeReg i (eqResult (s.value b) (s.value c))).advance 3) := State.writer_next h

theorem exec_gt_next {s t : State} {a b c : Operand} (h : exec (.gt a b c) s = .next t) :
    (∃ k, a = .lit k ∧ t = s.badDestination k) ∨
    (∃ i, a = .reg i ∧ t = (s.writeReg i (gtResult (s.value b) (s.value c))).advance 3) := State.writer_next h

theorem exec_add_next {s t : State} {a b c : Operand} (h : exec (.add a b c) s = .next t) :
    (∃ k, a = .lit k ∧ t = s.badDestination k) ∨
    (∃ i, a = .reg i ∧ t = (s.writeReg i (addResult (s.value b) (s.value c))).advance 3) := State.writer_next h

theorem exec_mult_next {s t : State} {a b c : Operand} (h : exec (.mult a b c) s = .next t) :
    (∃ k, a = .lit k ∧ t = s.badDestination k) ∨
    (∃ i, a = .reg i ∧ t = (s.writeReg i (multResult (s.value b) (s.value c))).advance 3) := State.writer_next h

theorem exec_and_next {s t : State} {a b c : Operand} (h : exec (.and a b c) s = .next t) :
    (∃ k, a = .lit k ∧ t = s.badDestination k) ∨
    (∃ i, a = .reg i ∧ t = (s.writeReg i (andResult (s.value b) (s.value c))).advance 3) := State.writer_next h

theorem exec_or_next {s t : State} {a b c : Operand} (h : exec (.or a b c) s = .next t) :
    (∃ k, a = .lit k ∧ t = s.badDestination k) ∨
    (∃ i, a = .reg i ∧ t = (s.writeReg i (orResult (s.value b) (s.value c))).advance 3) := State.writer_next h

theorem exec_not_next {s t : State} {a b : Operand} (h : exec (.not a b) s = .next t) :
    (∃ k, a = .lit k ∧ t = s.badDestination k) ∨
    (∃ i, a = .reg i ∧ t = (s.writeReg i (notResult (s.value b))).advance 2) := State.writer_next h

theorem exec_mod_next {s t : State} {a b c : Operand} (h : exec (.mod a b c) s = .next t) :
    (∃ k, a = .lit k ∧ t = s.badDestination k) ∨
    (∃ i, a = .reg i ∧ s.value c = 0#16 ∧
      t = s.faulted { kind := .divisionByZero, addr := some s.pc, info := .none }) ∨
    (∃ i, a = .reg i ∧ s.value c ≠ 0#16 ∧
      t = (s.writeReg i (modResult (s.value b) (s.value c))).advance 3) := by
  rcases State.checkDestination_next h with h | ⟨i, ha, h⟩
  · exact .inl h
  · by_cases hc : s.value c = 0#16
    · rw [if_pos hc, State.raise_next_iff] at h
      exact .inr (.inl ⟨i, ha, hc, h⟩)
    · rw [if_neg hc] at h
      exact .inr (.inr ⟨i, ha, hc, (Host.Outcome.next.inj h).symm⟩)

theorem exec_push_next {s t : State} {a : Operand} (h : exec (.push a) s = .next t) :
    (s.config.stackCapacity = some s.stack.length ∧
      t = s.faulted { kind := .stackOverflow, addr := some s.pc, info := .none }) ∨
    (s.config.stackCapacity ≠ some s.stack.length ∧
      t = (s.setStack (s.value a :: s.stack)).advance 1) := by
  rcases State.checkStackRoom_next h with h | ⟨hs, h⟩
  · exact .inl h
  · exact .inr ⟨hs, (Host.Outcome.next.inj h).symm⟩

theorem exec_pop_next {s t : State} {a : Operand} (h : exec (.pop a) s = .next t) :
    (∃ k, a = .lit k ∧ t = s.badDestination k) ∨
    (∃ i, a = .reg i ∧ s.stack = [] ∧
      t = s.faulted { kind := .stackUnderflow, addr := some s.pc, info := .none }) ∨
    (∃ i v rest, a = .reg i ∧ s.stack = v :: rest ∧ t = ((s.setStack rest).writeReg i v).advance 1) := by
  rcases State.checkDestination_next h with h | ⟨i, ha, h⟩
  · exact .inl h
  · cases hs : s.stack with
    | nil =>
      simp only [hs] at h
      exact .inr (.inl ⟨i, ha, rfl, State.raise_next_iff.mp h⟩)
    | cons v rest =>
      simp only [hs] at h
      exact .inr (.inr ⟨i, v, rest, ha, rfl, (Host.Outcome.next.inj h).symm⟩)

theorem exec_jmp_next {s t : State} {a : Operand} (h : exec (.jmp a) s = .next t) :
    (s.config.memCapacity ≤ (s.value a).toNat ∧
      t = s.faulted { kind := .jumpOutOfRange, addr := some s.pc, info := .cell (s.value a) }) ∨
    ((s.value a).toNat < s.config.memCapacity ∧ t = s.setPc (s.value a)) := State.transfer_next h

theorem exec_jt_next {s t : State} {a b : Operand} (h : exec (.jt a b) s = .next t) :
    (s.value a = 0#16 ∧ t = s.advance 2) ∨
    (s.value a ≠ 0#16 ∧ s.config.memCapacity ≤ (s.value b).toNat ∧
      t = s.faulted { kind := .jumpOutOfRange, addr := some s.pc, info := .cell (s.value b) }) ∨
    (s.value a ≠ 0#16 ∧ (s.value b).toNat < s.config.memCapacity ∧ t = s.setPc (s.value b)) := by
  change execJt a b s = .next t at h
  unfold execJt at h
  by_cases ha : s.value a = 0#16
  · rw [if_neg (by simp [isNonzero_iff, ha])] at h
    exact .inl ⟨ha, (Host.Outcome.next.inj h).symm⟩
  · rw [if_pos ((isNonzero_iff _).mpr ha)] at h
    rcases State.transfer_next h with h | h
    · exact .inr (.inl ⟨ha, h⟩)
    · exact .inr (.inr ⟨ha, h⟩)

theorem exec_jf_next {s t : State} {a b : Operand} (h : exec (.jf a b) s = .next t) :
    (s.value a ≠ 0#16 ∧ t = s.advance 2) ∨
    (s.value a = 0#16 ∧ s.config.memCapacity ≤ (s.value b).toNat ∧
      t = s.faulted { kind := .jumpOutOfRange, addr := some s.pc, info := .cell (s.value b) }) ∨
    (s.value a = 0#16 ∧ (s.value b).toNat < s.config.memCapacity ∧ t = s.setPc (s.value b)) := by
  change execJf a b s = .next t at h
  unfold execJf at h
  by_cases ha : s.value a = 0#16
  · rw [if_neg (by simp [isNonzero_iff, ha])] at h
    rcases State.transfer_next h with h | h
    · exact .inr (.inl ⟨ha, h⟩)
    · exact .inr (.inr ⟨ha, h⟩)
  · rw [if_pos ((isNonzero_iff _).mpr ha)] at h
    exact .inl ⟨ha, (Host.Outcome.next.inj h).symm⟩

theorem exec_rmem_next {s t : State} {a b : Operand} (h : exec (.rmem a b) s = .next t) :
    (∃ k, a = .lit k ∧ t = s.badDestination k) ∨
    (∃ i, a = .reg i ∧ s.config.memCapacity ≤ (s.value b).toNat ∧
      t = s.faulted { kind := .memoryOutOfRange, addr := some s.pc, info := .cell (s.value b) }) ∨
    (∃ i, a = .reg i ∧ (s.value b).toNat < s.config.memCapacity ∧
      t = (s.writeReg i (s.mem.readCell (s.value b).toNat)).advance 2) := by
  rcases State.checkDestination_next h with h | ⟨i, ha, h⟩
  · exact .inl h
  · rcases State.checkAddress_next h with h | ⟨hb, h⟩
    · exact .inr (.inl ⟨i, ha, h⟩)
    · exact .inr (.inr ⟨i, ha, hb, (Host.Outcome.next.inj h).symm⟩)

theorem exec_wmem_next {s t : State} {a b : Operand} (h : exec (.wmem a b) s = .next t) :
    (s.config.memCapacity ≤ (s.value a).toNat ∧
      t = s.faulted { kind := .memoryOutOfRange, addr := some s.pc, info := .cell (s.value a) }) ∨
    ((s.value a).toNat < s.config.memCapacity ∧
      t = (s.storeCell (s.value a).toNat (s.value b)).advance 2) := by
  rcases State.checkAddress_next h with h | ⟨ha, h⟩
  · exact .inl h
  · exact .inr ⟨ha, (Host.Outcome.next.inj h).symm⟩

theorem exec_call_next {s t : State} {a : Operand} (h : exec (.call a) s = .next t) :
    (s.config.memCapacity ≤ (s.value a).toNat ∧
      t = s.faulted { kind := .jumpOutOfRange, addr := some s.pc, info := .cell (s.value a) }) ∨
    ((s.value a).toNat < s.config.memCapacity ∧ s.config.stackCapacity = some s.stack.length ∧
      t = s.faulted { kind := .stackOverflow, addr := some s.pc, info := .none }) ∨
    ((s.value a).toNat < s.config.memCapacity ∧ s.config.stackCapacity ≠ some s.stack.length ∧
      t = (s.setStack (s.npc 1 :: s.stack)).setPc (s.value a)) := by
  rcases State.checkTarget_next h with h | ⟨ha, h⟩
  · exact .inl h
  · rcases State.checkStackRoom_next h with h | ⟨hs, h⟩
    · exact .inr (.inl ⟨ha, h⟩)
    · exact .inr (.inr ⟨ha, hs, (Host.Outcome.next.inj h).symm⟩)

theorem exec_ret_next {s t : State} (h : exec .ret s = .next t) :
    (s.stack = [] ∧ t = (s.ended .returned).advance 0) ∨
    (∃ v rest, s.stack = v :: rest ∧ s.config.memCapacity ≤ v.toNat ∧
      t = s.faulted { kind := .jumpOutOfRange, addr := some s.pc, info := .cell v }) ∨
    (∃ v rest, s.stack = v :: rest ∧ v.toNat < s.config.memCapacity ∧ t = (s.setStack rest).setPc v) := by
  change execRet s = .next t at h
  unfold execRet at h
  split at h
  · rename_i hs
    exact .inl ⟨hs, (Host.Outcome.next.inj h).symm⟩
  · rename_i v rest hs
    rcases State.checkTarget_next h with h | ⟨hv, h⟩
    · exact .inr (.inl ⟨v, rest, hs, h⟩)
    · exact .inr (.inr ⟨v, rest, hs, hv, (Host.Outcome.next.inj h).symm⟩)

theorem exec_out_next {s t : State} {a : Operand} (h : exec (.out a) s = .next t) :
    (255 < (s.value a).toNat ∧
      t = s.faulted { kind := .nonCharacterValue, addr := some s.pc, info := .cell (s.value a) }) ∨
    ((s.value a).toNat ≤ 255 ∧ t = (s.emit ((s.value a).setWidth 8)).advance 1) := by
  change execOut a s = .next t at h
  unfold execOut outMax at h
  by_cases ha : 255 < (s.value a).toNat
  · rw [if_pos ha, State.raise_next_iff] at h
    exact .inl ⟨ha, h⟩
  · rw [if_neg ha] at h
    exact .inr ⟨by omega, (Host.Outcome.next.inj h).symm⟩

theorem exec_in_next {s t : State} {a : Operand} (h : exec (.in_ a) s = .next t) :
    (∃ k, a = .lit k ∧ t = s.badDestination k) ∨
    (∃ i, a = .reg i ∧
      ((s.input = [] ∧ t = s) ∨
       (∃ v rest, s.input = .char v :: rest ∧ t = ((s.setInput rest).writeReg i (v.setWidth 16)).advance 1) ∨
       (∃ rest, s.input = .endOfInput :: rest ∧ t = ((s.setInput rest).ended .inputEof).advance 1) ∨
       (∃ rest, s.input = .ioError :: rest ∧
         t = (s.setInput rest).faulted { kind := .ioError, addr := some s.pc, info := .none }))) := by
  rcases State.checkDestination_next h with h | ⟨i, ha, h⟩
  · exact .inl h
  · refine .inr ⟨i, ha, ?_⟩
    rcases hs : s.input with _ | ⟨_ | _ | _, rest⟩ <;> simp only [hs] at h
    · exact .inl ⟨rfl, (Host.Outcome.next.inj h).symm⟩
    · exact .inr (.inl ⟨_, rest, rfl, (Host.Outcome.next.inj h).symm⟩)
    · exact .inr (.inr (.inl ⟨rest, rfl, (Host.Outcome.next.inj h).symm⟩))
    · exact .inr (.inr (.inr ⟨rest, rfl, State.raise_next_iff.mp h⟩))

/-- Every instruction answers a next state on every state (the spec leaves none without an effect). -/
theorem exec_next (i : Instr) (s : State) : ∃ t, exec i s = .next t := by
  have hd : ∀ (a : Operand) (go : Fin 8 → Result), (∀ j, ∃ t, go j = .next t) → ∃ t, s.checkDestination a go = .next t := by
    intro a go h; cases a with
    | lit n => exact ⟨_, rfl⟩
    | reg j => exact h j
  have ht : ∀ (v : Cell) (go : Result), (∃ t, go = .next t) → ∃ t, s.checkTarget v go = .next t := by
    intro v go h; unfold State.checkTarget; split
    · exact ⟨_, rfl⟩
    · exact h
  have ha : ∀ (v : Cell) (go : Result), (∃ t, go = .next t) → ∃ t, s.checkAddress v go = .next t := by
    intro v go h; unfold State.checkAddress; split
    · exact ⟨_, rfl⟩
    · exact h
  have hr : ∀ (go : Result), (∃ t, go = .next t) → ∃ t, s.checkStackRoom go = .next t := by
    intro go h; unfold State.checkStackRoom; split
    · exact ⟨_, rfl⟩
    · exact h
  cases i with
  | halt => exact ⟨_, rfl⟩
  | set a b => exact hd _ _ fun _ => ⟨_, rfl⟩
  | push a => exact hr _ ⟨_, rfl⟩
  | pop a => exact hd _ _ fun _ => by split <;> exact ⟨_, rfl⟩
  | eq a b c => exact hd _ _ fun _ => ⟨_, rfl⟩
  | gt a b c => exact hd _ _ fun _ => ⟨_, rfl⟩
  | jmp a => exact ht _ _ ⟨_, rfl⟩
  | jt a b =>
    change ∃ t, execJt a b s = .next t
    unfold execJt; split
    · exact ht _ _ ⟨_, rfl⟩
    · exact ⟨_, rfl⟩
  | jf a b =>
    change ∃ t, execJf a b s = .next t
    unfold execJf; split
    · exact ⟨_, rfl⟩
    · exact ht _ _ ⟨_, rfl⟩
  | add a b c => exact hd _ _ fun _ => ⟨_, rfl⟩
  | mult a b c => exact hd _ _ fun _ => ⟨_, rfl⟩
  | mod a b c => exact hd _ _ fun _ => by split <;> exact ⟨_, rfl⟩
  | and a b c => exact hd _ _ fun _ => ⟨_, rfl⟩
  | or a b c => exact hd _ _ fun _ => ⟨_, rfl⟩
  | not a b => exact hd _ _ fun _ => ⟨_, rfl⟩
  | rmem a b => exact hd _ _ fun _ => ha _ _ ⟨_, rfl⟩
  | wmem a b => exact ha _ _ ⟨_, rfl⟩
  | call a => exact ht _ _ (hr _ ⟨_, rfl⟩)
  | ret =>
    change ∃ t, execRet s = .next t
    unfold execRet; split
    · exact ⟨_, rfl⟩
    · exact ht _ _ ⟨_, rfl⟩
  | out a =>
    change ∃ t, execOut a s = .next t
    unfold execOut; split <;> exact ⟨_, rfl⟩
  | in_ a => exact hd _ _ fun _ => by split <;> exact ⟨_, rfl⟩
  | noop => exact ⟨_, rfl⟩

end Sys2Proof.Machine
end

