-- ==== Sys2Proof/Laws/Effect.lean ====
section
/-! SUPPORT. Everything an instruction can do, said once over all instructions: `exec_effect` sorts a next state into the shapes below,
and every rule over all instructions is a case analysis on them. -/

namespace Sys2Proof.Machine

/-- What bounds the value a register writer but Pop and In writes (spec/10_state.md R33). -/
def WrittenValue (s : State) (i : Instr) (d : Fin 8) (v : Cell) : Prop :=
  v.toNat ≤ wordMax ∨ (∃ b, v.toNat ≤ (s.value b).toNat) ∨
  (∃ b, i = .rmem (.reg d) b ∧ (s.value b).toNat < s.config.memCapacity ∧
    v = s.mem.readCell (s.value b).toNat)

/-- The shapes of `exec i s = .next t`, with what is known in each. -/
inductive Effect (s : State) : Instr → State → Prop
  /-- A fault of the instruction's own (R302). -/
  | fault (i : Instr) (k : FaultKind) (info : FaultInfo) (hk : k ≠ .loadError) :
      Effect s i (s.faulted { kind := k, addr := some s.pc, info := info })
  /-- In meets IoError (R208). -/
  | inError (r : Fin 8) (rest : List Response) (hin : s.input = .ioError :: rest) :
      Effect s (.in_ (.reg r))
        ((s.setInput rest).faulted { kind := .ioError, addr := some s.pc, info := .none })
  /-- Noop, and a Jt or Jf not taken. -/
  | advance (i : Instr) (hi : i = .noop ∨ ∃ a b, i = .jt a b ∨ i = .jf a b) : Effect s i (s.advance i.arity)
  /-- Halt. -/
  | halt : Effect s .halt ((s.ended .halted).advance 0)
  /-- Set, Eq, Gt, Add, Mult, Mod, And, Or, Not, Rmem. -/
  | write (i : Instr) (d : Fin 8) (v : Cell) (hd : i.destination = some (.reg d))
      (hv : WrittenValue s i d v) : Effect s i ((s.writeReg d v).advance i.arity)
  /-- Push with room. -/
  | push (a : Operand) (hroom : s.config.stackCapacity ≠ some s.stack.length) :
      Effect s (.push a) ((s.setStack (s.value a :: s.stack)).advance 1)
  /-- Pop of an entry. -/
  | pop (d : Fin 8) (v : Cell) (rest : List Cell) (hst : s.stack = v :: rest) :
      Effect s (.pop (.reg d)) (((s.setStack rest).writeReg d v).advance 1)
  /-- Jmp, and a Jt or Jf taken. -/
  | jump (i : Instr) (v : Cell) (hi : ∃ a b, i = .jmp a ∨ i = .jt a b ∨ i = .jf a b)
      (hv : v.toNat < s.config.memCapacity) : Effect s i (s.setPc v)
  /-- Wmem. -/
  | store (a b : Operand) (ha : (s.value a).toNat < s.config.memCapacity) :
      Effect s (.wmem a b) ((s.storeCell (s.value a).toNat (s.value b)).advance 2)
  /-- Call with room. -/
  | call (a : Operand) (ha : (s.value a).toNat < s.config.memCapacity)
      (hroom : s.config.stackCapacity ≠ some s.stack.length) :
      Effect s (.call a) ((s.setStack (s.npc 1 :: s.stack)).setPc (s.value a))
  /-- Ret on the empty stack. -/
  | returned (hst : s.stack = []) : Effect s .ret ((s.ended .returned).advance 0)
  /-- Ret to an entry. -/
  | ret (v : Cell) (rest : List Cell) (hst : s.stack = v :: rest) (hv : v.toNat < s.config.memCapacity) :
      Effect s .ret ((s.setStack rest).setPc v)
  /-- Out of a byte. -/
  | out (a : Operand) (ha : (s.value a).toNat ≤ 255) :
      Effect s (.out a) ((s.emit ((s.value a).setWidth 8)).advance 1)
  /-- In with no response waits (R205). -/
  | wait (r : Fin 8) (hin : s.input = []) : Effect s (.in_ (.reg r)) s
  /-- In takes a code. -/
  | inChar (r : Fin 8) (v : Word) (rest : List Response) (hin : s.input = .char v :: rest) :
      Effect s (.in_ (.reg r)) (((s.setInput rest).writeReg r (v.setWidth 16)).advance 1)
  /-- In meets the end of input. -/
  | inEof (r : Fin 8) (rest : List Response) (hin : s.input = .endOfInput :: rest) :
      Effect s (.in_ (.reg r)) (((s.setInput rest).ended .inputEof).advance 1)

/-- A literal destination is a fault of the instruction's own. -/
theorem Effect.badDestination (s : State) (i : Instr) (n : Word) : Effect s i (s.badDestination n) :=
  .fault i _ _ (by simp)

/-- The effect of a register writer, from its inversion lemma. -/
theorem Effect.of_writer {s t : State} {i : Operand → Instr} {a : Operand} {v : Cell} {n : Nat}
    (h : (∃ k, a = .lit k ∧ t = s.badDestination k) ∨ (∃ d, a = .reg d ∧ t = (s.writeReg d v).advance n))
    (hn : (i a).arity = n) (hd : (i a).destination = some a) (hv : ∀ d, a = .reg d → WrittenValue s (i a) d v) :
    Effect s (i a) t := by
  rcases h with ⟨k, rfl, rfl⟩ | ⟨d, rfl, rfl⟩
  · exact Effect.badDestination s _ k
  · rw [← hn]; exact .write _ d v hd (hv d rfl)

/-- Every next state of an instruction has one of the shapes of `Effect`. -/
theorem exec_effect {i : Instr} {s t : State} (h : exec i s = .next t) : Effect s i t := by
  cases i with
  | halt => rw [exec_halt_next h]; exact .halt
  | noop => rw [exec_noop_next h]; exact .advance .noop (.inl rfl)
  | set a b =>
    exact Effect.of_writer (i := fun a => .set a b) (exec_set_next h) rfl rfl
      fun _ _ => .inr (.inl ⟨b, Nat.le_refl _⟩)
  | eq a b c =>
    exact Effect.of_writer (i := fun a => .eq a b c) (exec_eq_next h) rfl rfl fun _ _ => .inl (toNat_truthCell_le _)
  | gt a b c =>
    exact Effect.of_writer (i := fun a => .gt a b c) (exec_gt_next h) rfl rfl fun _ _ => .inl (toNat_truthCell_le _)
  | add a b c =>
    exact Effect.of_writer (i := fun a => .add a b c) (exec_add_next h) rfl rfl fun _ _ =>
      .inl (by rw [toNat_addResult, wordMax]; omega)
  | mult a b c =>
    exact Effect.of_writer (i := fun a => .mult a b c) (exec_mult_next h) rfl rfl fun _ _ =>
      .inl (by rw [toNat_multResult, wordMax]; omega)
  | and a b c =>
    exact Effect.of_writer (i := fun a => .and a b c) (exec_and_next h) rfl rfl fun _ _ => .inl (toNat_masked_le _)
  | or a b c =>
    exact Effect.of_writer (i := fun a => .or a b c) (exec_or_next h) rfl rfl fun _ _ => .inl (toNat_masked_le _)
  | not a b =>
    exact Effect.of_writer (i := fun a => .not a b) (exec_not_next h) rfl rfl fun _ _ => .inl (toNat_masked_le _)
  | mod a b c =>
    rcases exec_mod_next h with h | ⟨d, rfl, _, rfl⟩ | ⟨d, rfl, _, rfl⟩
    · exact Effect.of_writer (i := fun a => .mod a b c) (v := modResult (s.value b) (s.value c)) (.inl h) rfl rfl
        fun _ _ => .inr (.inl ⟨b, by rw [toNat_modResult]; exact Nat.mod_le _ _⟩)
    · exact .fault _ _ _ (by simp)
    · exact .write (.mod (.reg d) b c) d _ rfl (.inr (.inl ⟨b, by rw [toNat_modResult]; exact Nat.mod_le _ _⟩))
  | push a =>
    rcases exec_push_next h with ⟨_, rfl⟩ | ⟨hs, rfl⟩
    · exact .fault _ _ _ (by simp)
    · exact .push a hs
  | pop a =>
    rcases exec_pop_next h with ⟨k, rfl, rfl⟩ | ⟨d, rfl, _, rfl⟩ | ⟨d, v, rest, rfl, hs, rfl⟩
    · exact Effect.badDestination s _ k
    · exact .fault _ _ _ (by simp)
    · exact .pop d v rest hs
  | jmp a =>
    rcases exec_jmp_next h with ⟨_, rfl⟩ | ⟨hv, rfl⟩
    · exact .fault _ _ _ (by simp)
    · exact .jump _ _ ⟨a, a, .inl rfl⟩ hv
  | jt a b =>
    rcases exec_jt_next h with ⟨_, rfl⟩ | ⟨_, _, rfl⟩ | ⟨_, hv, rfl⟩
    · exact .advance (.jt a b) (.inr ⟨a, b, .inl rfl⟩)
    · exact .fault _ _ _ (by simp)
    · exact .jump _ _ ⟨a, b, .inr (.inl rfl)⟩ hv
  | jf a b =>
    rcases exec_jf_next h with ⟨_, rfl⟩ | ⟨_, _, rfl⟩ | ⟨_, hv, rfl⟩
    · exact .advance (.jf a b) (.inr ⟨a, b, .inr rfl⟩)
    · exact .fault _ _ _ (by simp)
    · exact .jump _ _ ⟨a, b, .inr (.inr rfl)⟩ hv
  | rmem a b =>
    rcases exec_rmem_next h with ⟨k, rfl, rfl⟩ | ⟨d, rfl, _, rfl⟩ | ⟨d, rfl, hb, rfl⟩
    · exact Effect.badDestination s _ k
    · exact .fault _ _ _ (by simp)
    · exact .write (.rmem (.reg d) b) d _ rfl (.inr (.inr ⟨b, rfl, hb, rfl⟩))
  | wmem a b =>
    rcases exec_wmem_next h with ⟨_, rfl⟩ | ⟨ha, rfl⟩
    · exact .fault _ _ _ (by simp)
    · exact .store a b ha
  | call a =>
    rcases exec_call_next h with ⟨_, rfl⟩ | ⟨_, _, rfl⟩ | ⟨ha, hs, rfl⟩
    · exact .fault _ _ _ (by simp)
    · exact .fault _ _ _ (by simp)
    · exact .call a ha hs
  | ret =>
    rcases exec_ret_next h with ⟨hs, rfl⟩ | ⟨v, rest, _, _, rfl⟩ | ⟨v, rest, hs, hv, rfl⟩
    · exact .returned hs
    · exact .fault _ _ _ (by simp)
    · exact .ret v rest hs hv
  | out a =>
    rcases exec_out_next h with ⟨_, rfl⟩ | ⟨ha, rfl⟩
    · exact .fault _ _ _ (by simp)
    · exact .out a ha
  | in_ a =>
    rcases exec_in_next h with ⟨k, rfl, rfl⟩ |
      ⟨r, rfl, ⟨hs, ht⟩ | ⟨v, rest, hs, rfl⟩ | ⟨rest, hs, rfl⟩ | ⟨rest, hs, rfl⟩⟩
    · exact Effect.badDestination s _ k
    · rw [ht]; exact .wait r hs
    · exact .inChar r v rest hs
    · exact .inEof r rest hs
    · exact .inError r rest hs

end Sys2Proof.Machine
end

