-- ==== Sys2Proof/Laws/Load.lean ====
section
/-! SUPPORT. The image load: its two cases (spec/70_reset_and_hazards.md R400 to R404). -/

namespace Sys2Proof.Machine

theorem State.load_odd {s : State} {image : List Byte} (h : image.length % 2 = 1) :
    s.load image = s.faulted { kind := .loadError, addr := none, info := .imageLength image.length } := by
  rw [State.load, if_pos h]

theorem State.load_even {s : State} {image : List Byte} (h : image.length % 2 = 0) :
    s.load image =
      { s with mem := s.mem.storeFrom s.config.memCapacity 0 (cellsOfBytes image), status := .running } := by
  rw [State.load, if_neg (by omega)]

theorem State.boot_odd {c : Config} {image : List Byte} {rs : List Response} (h : image.length % 2 = 1) :
    State.boot c image rs = State.faulted { State.reset with config := c, input := rs }
      { kind := .loadError, addr := none, info := .imageLength image.length } :=
  State.load_odd h

theorem State.boot_even {c : Config} {image : List Byte} {rs : List Response} (h : image.length % 2 = 0) :
    State.boot c image rs = { State.reset with
      config := c
      input := rs
      mem := Memory.storeFrom [] c.memCapacity 0 (cellsOfBytes image) } :=
  State.load_even h

end Sys2Proof.Machine
end

