-- ==== Sys2Proof/Laws/PerInstr.lean ====
section
/-! SUPPORT. Statements about every instruction as syntax, one lemma per constructor. `EncodeShape`: the first word is the opcode
word, its value is below `NOPCODES` and fixes the arity, and as many operand words follow (spec/30_encoding.md R60 to R62). -/

namespace Sys2Proof.Laws.EncodeShape

/-- The first word of `i` is an opcode 0..21 from which the arity can be read, and arity words follow it. -/
def Statement (i : Instr) : Prop :=
  ∃ ws, encode i = i.opcode :: ws ∧ ws.length = i.arity ∧ i.opcode.toNat < nOpcodes ∧
    arityOfOpcode i.opcode = some i.arity

theorem halt : Statement (.halt) := ⟨_, rfl, rfl, by simp [Instr.opcode, nOpcodes], rfl⟩
theorem set (a b : Operand) : Statement (.set a b) := ⟨_, rfl, rfl, by simp [Instr.opcode, nOpcodes], rfl⟩
theorem push (a : Operand) : Statement (.push a) := ⟨_, rfl, rfl, by simp [Instr.opcode, nOpcodes], rfl⟩
theorem pop (a : Operand) : Statement (.pop a) := ⟨_, rfl, rfl, by simp [Instr.opcode, nOpcodes], rfl⟩
theorem eq (a b c : Operand) : Statement (.eq a b c) := ⟨_, rfl, rfl, by simp [Instr.opcode, nOpcodes], rfl⟩
theorem gt (a b c : Operand) : Statement (.gt a b c) := ⟨_, rfl, rfl, by simp [Instr.opcode, nOpcodes], rfl⟩
theorem jmp (a : Operand) : Statement (.jmp a) := ⟨_, rfl, rfl, by simp [Instr.opcode, nOpcodes], rfl⟩
theorem jt (a b : Operand) : Statement (.jt a b) := ⟨_, rfl, rfl, by simp [Instr.opcode, nOpcodes], rfl⟩
theorem jf (a b : Operand) : Statement (.jf a b) := ⟨_, rfl, rfl, by simp [Instr.opcode, nOpcodes], rfl⟩
theorem add (a b c : Operand) : Statement (.add a b c) := ⟨_, rfl, rfl, by simp [Instr.opcode, nOpcodes], rfl⟩
theorem mult (a b c : Operand) : Statement (.mult a b c) := ⟨_, rfl, rfl, by simp [Instr.opcode, nOpcodes], rfl⟩
theorem mod (a b c : Operand) : Statement (.mod a b c) := ⟨_, rfl, rfl, by simp [Instr.opcode, nOpcodes], rfl⟩
theorem and (a b c : Operand) : Statement (.and a b c) := ⟨_, rfl, rfl, by simp [Instr.opcode, nOpcodes], rfl⟩
theorem or (a b c : Operand) : Statement (.or a b c) := ⟨_, rfl, rfl, by simp [Instr.opcode, nOpcodes], rfl⟩
theorem not (a b : Operand) : Statement (.not a b) := ⟨_, rfl, rfl, by simp [Instr.opcode, nOpcodes], rfl⟩
theorem rmem (a b : Operand) : Statement (.rmem a b) := ⟨_, rfl, rfl, by simp [Instr.opcode, nOpcodes], rfl⟩
theorem wmem (a b : Operand) : Statement (.wmem a b) := ⟨_, rfl, rfl, by simp [Instr.opcode, nOpcodes], rfl⟩
theorem call (a : Operand) : Statement (.call a) := ⟨_, rfl, rfl, by simp [Instr.opcode, nOpcodes], rfl⟩
theorem ret : Statement (.ret) := ⟨_, rfl, rfl, by simp [Instr.opcode, nOpcodes], rfl⟩
theorem out (a : Operand) : Statement (.out a) := ⟨_, rfl, rfl, by simp [Instr.opcode, nOpcodes], rfl⟩
theorem in_ (a : Operand) : Statement (.in_ a) := ⟨_, rfl, rfl, by simp [Instr.opcode, nOpcodes], rfl⟩
theorem noop : Statement (.noop) := ⟨_, rfl, rfl, by simp [Instr.opcode, nOpcodes], rfl⟩

end Sys2Proof.Laws.EncodeShape
end

