-- ==== Sys2Proof/Laws/Step.lean ====
section
/-! SUPPORT. Everything one step can do, said once; and what fetching the cells of an instruction says about pc. -/

namespace Sys2Proof.Machine

theorem step_of_over {s : State} (h : s.status ≠ .running) : step s = .next s := by
  rw [step, if_pos h]

theorem step_of_decoded {s : State} {i : Instr} (hs : s.status = .running) (hp : s.pc.toNat < s.config.memCapacity)
    (hd : decode s.fetchCells = .ok i) : step s = exec i s := by
  rw [step, if_neg (by simp [hs]), if_neg (by omega), if_neg (by omega), hd]

theorem step_of_decodeError {s : State} {e : DecodeError} (hs : s.status = .running)
    (hp : s.pc.toNat < s.config.memCapacity) (hd : decode s.fetchCells = .error e) :
    step s = .next (s.faulted
      { kind := (decodeFault s.pc e).1, addr := some s.pc, info := (decodeFault s.pc e).2 }) := by
  rw [step, if_neg (by simp [hs]), if_neg (by omega), if_neg (by omega), hd]; rfl

theorem step_at_end {s : State} (hs : s.status = .running) (hp : s.pc.toNat = s.config.memCapacity) :
    step s = .next (s.ended .endOfMemory) := by
  rw [step, if_neg (by simp [hs]), if_neg (by omega), if_pos hp]

/-- The cases of a step that answers a next state. -/
theorem step_next {s t : State} (h : step s = .next t) :
    (s.status ≠ .running ∧ t = s) ∨
    (s.status = .running ∧ s.pc.toNat = s.config.memCapacity ∧ t = s.ended .endOfMemory) ∨
    (s.status = .running ∧ s.pc.toNat < s.config.memCapacity ∧
      ∃ e, decode s.fetchCells = .error e ∧
        t = s.faulted { kind := (decodeFault s.pc e).1, addr := some s.pc, info := (decodeFault s.pc e).2 }) ∨
    (s.status = .running ∧ s.pc.toNat < s.config.memCapacity ∧
      ∃ i, decode s.fetchCells = .ok i ∧ exec i s = .next t) := by
  by_cases hs : s.status = .running
  · rcases Nat.lt_trichotomy s.pc.toNat s.config.memCapacity with hp | hp | hp
    · cases hd : decode s.fetchCells with
      | error e =>
        rw [step_of_decodeError hs hp hd] at h
        exact .inr (.inr (.inl ⟨hs, hp, e, rfl, (Host.Outcome.next.inj h).symm⟩))
      | ok i =>
        rw [step_of_decoded hs hp hd] at h
        exact .inr (.inr (.inr ⟨hs, hp, i, rfl, h⟩))
    · rw [step_at_end hs hp] at h
      exact .inr (.inl ⟨hs, hp, (Host.Outcome.next.inj h).symm⟩)
    · rw [step, if_neg (by simp [hs]), if_pos hp] at h
      exact absurd h (by simp)
  · rw [step_of_over hs] at h
    exact .inl ⟨hs, (Host.Outcome.next.inj h).symm⟩

/-- `run` is the host's run of this machine. -/
theorem core_run_eq (k : Nat) : ∀ s : State, Sys2Proof.core.run k s = run k s := by
  induction k with
  | zero => intro s; exact Host.Core.run.eq_1 Sys2Proof.core s
  | succ k ih =>
    intro s
    refine (Host.Core.run.eq_2 Sys2Proof.core s k).trans ?_
    change _ = (match step s with
      | .next s' => run k s'
      | .fault r => .fault r
      | .refused r => .refused r)
    have hs : Sys2Proof.core.step s = step s := rfl
    cases h : step s with
    | next s' => rw [hs, h]; exact ih s'
    | fault r => rw [hs, h]; exact rfl
    | refused r => rw [hs, h]; exact rfl

/-- A decode error never gives the fault kind of the image load. -/
theorem decodeFault_kind (pc0 : Cell) (e : DecodeError) : (decodeFault pc0 e).1 ≠ .loadError := by
  cases e <;> simp [decodeFault]

/-- An update of pc to npc stays in memory or at its end when the instruction's words lie in memory (R24, R101). -/
theorem State.toNat_npc {s : State} {n : Nat} (hc : s.config.wf) (h : s.pc.toNat + 1 + n ≤ s.config.memCapacity) :
    (s.npc n).toNat = s.pc.toNat + 1 + n := by
  have := hc.2
  simp [State.npc]; omega

/-- The first cell fetched is the one at pc. -/
theorem State.fetchCells_eq {s : State} (h : s.pc.toNat < s.config.memCapacity) :
    s.fetchCells = s.mem.readCell s.pc.toNat ::
      s.mem.cellsFrom s.config.memCapacity (s.pc.toNat + 1) 3 :=
  Memory.cellsFrom_succ _ _ _ _ h

theorem State.fetchCells_length (s : State) :
    s.fetchCells.length = min 4 (s.config.memCapacity - s.pc.toNat) :=
  Memory.cellsFrom_length _ _ _ _

theorem State.fetchCells_getElem? {s : State} {k : Nat} (hk : k < 4) (h : s.pc.toNat + k < s.config.memCapacity) :
    s.fetchCells[k]? = some (s.mem.readCell (s.pc.toNat + k)) :=
  Memory.cellsFrom_getElem? _ _ _ _ _ hk h

end Sys2Proof.Machine
end

