-- ==== Sys2Proof/Machine/Assembler.lean ====
section
/-! DEFINITION. The notation the spec writes programs in (spec/30_encoding.md R70, R71) and its translation into cells. It is no part
of the machine: no step uses it. Where R70 leaves a spelling open, see notes/assumptions/29.md. -/

namespace Sys2Proof.Machine

/-- The mnemonics of R63 in lower case, since their case is ignored (R70), with opcode value and arity (R62). No other
mnemonic exists (R71). -/
def mnemonicTable : List (List Char × Cell × Nat) :=
  [("halt".toList, 0, 0), ("set".toList, 1, 2), ("push".toList, 2, 1), ("pop".toList, 3, 1), ("eq".toList, 4, 3),
   ("gt".toList, 5, 3), ("jmp".toList, 6, 1), ("jt".toList, 7, 2), ("jf".toList, 8, 2), ("add".toList, 9, 3)] ++
  [("mult".toList, 10, 3), ("mod".toList, 11, 3), ("and".toList, 12, 3), ("or".toList, 13, 3), ("not".toList, 14, 2),
   ("rmem".toList, 15, 2), ("wmem".toList, 16, 2), ("call".toList, 17, 1), ("ret".toList, 18, 0), ("out".toList, 19, 1)] ++
  [("in".toList, 20, 1), ("noop".toList, 21, 0)]

/-- Cut a text at every character that `p` names. -/
def splitText (p : Char → Bool) : List Char → List (List Char)
  | [] => [[]]
  | c :: cs =>
    match splitText p cs with
    | [] => [[]]
    | w :: ws => if p c then [] :: w :: ws else (c :: w) :: ws

/-- A decimal number, at least one digit. -/
def decimal (cs : List Char) : Option Nat :=
  match cs with
  | [] => none
  | _ => cs.foldl (fun n c => n.bind fun k => if c.isDigit then some (10 * k + (c.toNat - 48)) else none) (some 0)

/-- A register number `0`..`7` as one digit. -/
def registerDigit (c : Char) : Option (Fin 8) :=
  if h : c.toNat - 48 < 8 then (if c.isDigit then some ⟨c.toNat - 48, h⟩ else none) else none

/-- A register, `r0`..`r7` or `reg0`..`reg7` (R70). -/
def registerName : List Char → Option (Fin 8)
  | ['r', c] => registerDigit c
  | ['r', 'e', 'g', c] => registerDigit c
  | _ => none

/-- An operand in the text: a register, a literal 0..32767, or a label, which stands for the literal address of its
instruction (R70). -/
def assembleOperand (labels : List (List Char × Nat)) (t : List Char) : Option Cell :=
  match registerName t with
  | some i => some (Operand.reg i).encode
  | none =>
    match decimal t with
    | some n => if n ≤ wordMax then some (BitVec.ofNat 16 n) else none
    | none => (labels.lookup t).bind fun a => if a ≤ wordMax then some (BitVec.ofNat 16 a) else none

/-- One instruction of the text: its labels, and its mnemonic with its operand tokens. -/
structure AsmLine where
  labels : List (List Char)
  mnemonic : List Char
  operands : List (List Char)
  deriving DecidableEq, Repr

/-- The name a label token `name:` gives. -/
def labelName (t : List Char) : Option (List Char) :=
  match t.reverse with
  | ':' :: n :: ns => some (n :: ns).reverse
  | _ => none

/-- The tokens of one line, at most one label before the instruction (R70). An empty line is no instruction. -/
def asmLine : List (List Char) → Option (Option AsmLine)
  | [] => some none
  | t :: ts =>
    match labelName t, ts with
    | some _, [] => none
    | some n, m :: os => some (some { labels := [n], mnemonic := m.map Char.toLower, operands := os })
    | none, os => some (some { labels := [], mnemonic := t.map Char.toLower, operands := os })

/-- The lines of a text: one instruction per line, or separated by `;`; tokens separated by spaces (R70). -/
def asmLines (text : List Char) : Option (List AsmLine) :=
  (splitText (fun c => c == '\n' || c == ';') text).foldr
    (fun l acc => acc.bind fun rest =>
      match asmLine ((splitText (fun c => c == ' ') l).filter fun t => !t.isEmpty) with
      | none => none
      | some none => some rest
      | some (some x) => some (x :: rest))
    (some [])

/-- The addresses of the labels, the first instruction standing at `a`; the length of an instruction is 1 + arity. -/
def labelAddresses (a : Nat) : List AsmLine → Option (List (List Char × Nat))
  | [] => some []
  | l :: ls =>
    match mnemonicTable.lookup l.mnemonic with
    | none => none
    | some (_, n) => (labelAddresses (a + 1 + n) ls).map fun rest => l.labels.map (fun x => (x, a)) ++ rest

/-- The words of one instruction: "the opcode value of rule R63 followed by one word per operand" (R70). -/
def assembleLine (labels : List (List Char × Nat)) (l : AsmLine) : Option (List Cell) :=
  match mnemonicTable.lookup l.mnemonic with
  | none => none
  | some (op, n) =>
    if l.operands.length = n then (l.operands.mapM (assembleOperand labels)).map fun ws => op :: ws else none

/-- A program text into the cells of its image from address 0 on (R70). -/
def assemble (text : List Char) : Option (List Cell) :=
  match asmLines text with
  | none => none
  | some ls =>
    match labelAddresses 0 ls with
    | none => none
    | some labels => (ls.mapM (assembleLine labels)).map List.flatten

end Sys2Proof.Machine
end

