-- ==== Sys2Proof/Tests/Slice0.lean ====
section
/-! SUPPORT. The model's own tests. Expected results are the spec's: the tables of 30_encoding.md and the vectors of
95_test_vectors.md, named in each comment. After them, a witness for the hypotheses of every statement that has some. -/

namespace Sys2Proof.Machine.Tests

/-- A CORE of the default parameters, reset with an image of these words; `rs` is what its input channel answers. -/
def booted (ws : List Cell) (rs : List Response := []) : State := State.boot Config.standard (bytesOfCells ws) rs

/-- The next state of an outcome (the reset state where there is none). -/
def nextOf : Result → State
  | .next t => t
  | .fault _ => State.reset
  | .refused _ => State.reset

/-- One step. -/
def after (s : State) : State := nextOf (step s)

/-- The record of a faulted state as kind code, address and info. -/
def record (s : State) : Option (Nat × Option Nat × FaultInfo) :=
  s.faultRecord.map fun r => (r.kind.code, r.addr.map BitVec.toNat, r.info)

/-! ## Well-formedness: a literal in each `dst` slot is refused (R103, R67) -/

theorem test_illFormed_refused :
    ([.set (.lit 5) (.lit 6), .pop (.lit 7), .eq (.lit 3) (.lit 1) (.lit 1), .gt (.lit 3) (.reg 1) (.lit 1),
      .add (.lit 1) (.lit 2) (.lit 3), .mult (.lit 1) (.reg 2) (.lit 3), .mod (.lit 7) (.lit 5) (.lit 0),
      .and (.lit 1) (.lit 2) (.lit 3), .or (.lit 1) (.lit 2) (.lit 3), .not (.lit 1) (.reg 2),
      .rmem (.lit 5) (.lit 0), .in_ (.lit 5)] : List Instr).all (fun i => !i.wellFormed) = true := by decide

theorem test_wellFormed_accepted :
    ([.set (.reg 5) (.lit 6), .in_ (.reg 7), .wmem (.lit 100) (.lit 1), .push (.lit 1), .jmp (.lit 3), .halt] :
      List Instr).all (fun i => i.wellFormed) = true := by decide

/-! ## Decoding: words written out from R63 and R64, every constructor -/

theorem test_decode_halt : decode [0] = .ok .halt := by decide
theorem test_decode_set : decode [1, 32768, 5] = .ok (.set (.reg 0) (.lit 5)) := by decide
theorem test_decode_push : decode [2, 42] = .ok (.push (.lit 42)) := by decide
theorem test_decode_pop : decode [3, 32770] = .ok (.pop (.reg 2)) := by decide
theorem test_decode_eq : decode [4, 32768, 7, 8] = .ok (.eq (.reg 0) (.lit 7) (.lit 8)) := by decide
theorem test_decode_gt : decode [5, 32769, 6, 5] = .ok (.gt (.reg 1) (.lit 6) (.lit 5)) := by decide
theorem test_decode_jmp : decode [6, 3, 0, 0] = .ok (.jmp (.lit 3)) := by decide
theorem test_decode_jt : decode [7, 32768, 10] = .ok (.jt (.reg 0) (.lit 10)) := by decide
theorem test_decode_jf : decode [8, 32769, 20] = .ok (.jf (.reg 1) (.lit 20)) := by decide
theorem test_decode_add : decode [9, 32768, 32768, 32769] = .ok (.add (.reg 0) (.reg 0) (.reg 1)) := by decide
theorem test_decode_mult : decode [10, 32770, 300, 200] = .ok (.mult (.reg 2) (.lit 300) (.lit 200)) := by decide
theorem test_decode_mod : decode [11, 32769, 100, 7] = .ok (.mod (.reg 1) (.lit 100) (.lit 7)) := by decide
theorem test_decode_and : decode [12, 32768, 12, 10] = .ok (.and (.reg 0) (.lit 12) (.lit 10)) := by decide
theorem test_decode_or : decode [13, 32768, 12, 10] = .ok (.or (.reg 0) (.lit 12) (.lit 10)) := by decide
theorem test_decode_not : decode [14, 32771, 21845] = .ok (.not (.reg 3) (.lit 21845)) := by decide
theorem test_decode_rmem : decode [15, 32769, 100] = .ok (.rmem (.reg 1) (.lit 100)) := by decide
theorem test_decode_wmem : decode [16, 100, 21845] = .ok (.wmem (.lit 100) (.lit 21845)) := by decide
theorem test_decode_call : decode [17, 7] = .ok (.call (.lit 7)) := by decide
theorem test_decode_ret : decode [18] = .ok .ret := by decide
theorem test_decode_out : decode [19, 32768] = .ok (.out (.reg 0)) := by decide
theorem test_decode_in : decode [20, 32768] = .ok (.in_ (.reg 0)) := by decide
theorem test_decode_noop : decode [21, 32776] = .ok .noop := by decide

/-- The classification table of 95_test_vectors.md, L2. -/
theorem test_classify_table :
    classify .a 0 = .ok (.lit 0) ∧ classify .a 32767 = .ok (.lit 32767) ∧ classify .a 32768 = .ok (.reg 0) ∧
    classify .a 32775 = .ok (.reg 7) ∧ classify .b 32776 = .error (.invalidOperandEncoding .b 32776) ∧
    classify .c 65535 = .error (.invalidOperandEncoding .c 65535) := by decide

/-- The same table, words as opcode words. -/
theorem test_opcode_table :
    decode [22] = .error (.unknownOpcode 22) ∧ decode [32768] = .error (.unknownOpcode 32768) ∧
    decode [65535] = .error (.unknownOpcode 65535) ∧ decode [] = .error .opcodeMissing ∧
    decode [9, 32768] = .error (.operandMissing .b) := by decide

/-- R42, R403: `Set r0 5` as image bytes, low byte first. -/
theorem test_decodeBytes : decodeBytes [1, 0, 0, 128, 5, 0] = .ok (.set (.reg 0) (.lit 5)) := by decide

/-- The table's numbering: the second word is bits 31..16; above nbits every bit is 0. -/
theorem test_decodeTableWord :
    decodeTableWord 32 (2 + 42 * 65536) = some (.push (.lit 42)) ∧ decodeTableWord 16 19 = some (.out (.lit 0)) ∧
    decodeTableWord 16 22 = none ∧
    decodeTableWord 64 (9 + 32768 * 65536 + 32769 * 4294967296 + 7 * 281474976710656) =
      some (.add (.reg 0) (.reg 1) (.lit 7)) := by decide

theorem test_withFetchWord_runs_out :
    (after (State.reset.withFetchWord 32 (19 + 65 * 65536))).output = [65] := by decide

/-! ## One step each, from 95_test_vectors.md -/

-- H1
theorem test_halt : (after (booted [0])).status = .halted ∧ (after (booted [0])).pc = 1 := by decide
-- D7 (last step): a Noop in the last cell leaves pc = MEM_CAPACITY, and the next step is END_OF_MEMORY
theorem test_noop_last_cell :
    (after (((State.reset).storeCell 32766 21).setPc 32766)).pc = 32767 ∧
    (after (after (((State.reset).storeCell 32766 21).setPc 32766))).status = .endOfMemory := by decide
-- S1
theorem test_set : (after (booted [1, 32768, 5, 0])).readReg 0 = 5 ∧ (after (booted [1, 32768, 5, 0])).pc = 3 := by decide
-- D5
theorem test_set_literal : record (after (booted [1, 5, 6])) = some (4, some 0, .cell 5) := by decide
-- S3
theorem test_push : (after (booted [2, 42])).stack = [42] ∧ (after (booted [2, 42])).pc = 2 := by decide
-- S8
theorem test_push_overflow :
    record (after { (booted [2, 1, 2, 2]).setPc 2 with
      stack := [1], config := { Config.standard with stackCapacity := some 1 } }) = some (11, some 2, .none) := by decide
-- S7: the top goes first
theorem test_pop : (after ((booted [3, 32768]).setStack [8, 9])).readReg 0 = 8 ∧
    (after ((booted [3, 32768]).setStack [8, 9])).stack = [9] := by decide
-- S4 and S5: the destination before the stack
theorem test_pop_faults : record (after (booted [3, 32768])) = some (5, some 0, .none) ∧
    record (after (booted [3, 7])) = some (4, some 0, .cell 7) := by decide
-- Q1, Q2
theorem test_eq : (after (booted [4, 32768, 7, 7])).readReg 0 = 1 ∧
    (after (booted [4, 32768, 7, 8])).readReg 0 = 0 := by decide
-- Q4, Q6, Q7: strict and unsigned
theorem test_gt : (after (booted [5, 32768, 5, 5])).readReg 0 = 0 ∧
    (after (booted [5, 32768, 32767, 0])).readReg 0 = 1 ∧
    (after ((booted [5, 32768, 0, 32767]).writeReg 0 9)).readReg 0 = 0 := by decide
-- J1, J2
theorem test_jmp : (after (booted [6, 3, 0, 0])).pc = 3 ∧
    record (after (booted [6, 32767])) = some (9, some 0, .cell 32767) := by decide
-- J2b: MEM_CAPACITY = 32768 makes the target legal
theorem test_jmp_capacity :
    (after { booted [6, 32767] with config := { Config.standard with memCapacity := 32768 } }).pc = 32767 := by decide
-- J3a, J3b, J5, J6
theorem test_jt : (after (booted [7, 1, 4, 0, 0])).pc = 4 ∧ (after (booted [7, 0, 4, 0, 0])).pc = 3 ∧
    (after (booted [7, 0, 32767, 0])).pc = 3 ∧
    record (after (booted [7, 1, 32767])) = some (9, some 0, .cell 32767) := by decide
-- J4a, J4b, and R153: a Jf not taken does not check its target
theorem test_jf : (after (booted [8, 0, 4, 0, 0])).pc = 4 ∧ (after (booted [8, 1, 4, 0, 0])).pc = 3 ∧
    (after (booted [8, 1, 32767])).status = .running := by decide
-- A2, A3, A6, A8
theorem test_add : addResult 32767 1 = 0 ∧ addResult 32767 32767 = 32766 ∧ addResult 10 32767 = 9 ∧
    addResult 65535 1 = 0 := by decide
-- AP4, AP1
theorem test_add_step : (after ((booted [9, 32768, 32768, 32768]).writeReg 0 7)).readReg 0 = 14 ∧
    record (after (booted [9, 1, 2, 3])) = some (4, some 0, .cell 1) := by decide
-- A9, A11, A12, A15
theorem test_mult : multResult 32767 32767 = 1 ∧ multResult 200 200 = 7232 ∧ multResult 300 200 = 27232 ∧
    multResult 65535 65535 = 1 := by decide
-- AP5
theorem test_mult_step : (after ((booted [10, 32768, 32768, 32768]).writeReg 0 3)).readReg 0 = 9 := by decide
-- A16, A17, A24, A25
theorem test_mod : modResult 10 3 = 1 ∧ modResult 3 10 = 3 ∧ modResult 40000 50000 = 40000 ∧
    modResult 40000 32767 = 7233 := by decide
-- A19, AP2, AP3
theorem test_mod_step : (after (booted [11, 32769, 100, 7])).readReg 1 = 2 ∧
    record (after (booted [11, 32768, 5, 0])) = some (6, some 0, .none) ∧
    record (after (booted [11, 7, 5, 0])) = some (4, some 0, .cell 7) := by decide
-- A26, A29
theorem test_and : andResult 21845 13107 = 4369 ∧ andResult 65535 65535 = 32767 := by decide
-- A27
theorem test_and_step : (after (booted [12, 32768, 12, 10])).readReg 0 = 8 := by decide
-- A30, A33
theorem test_or : orResult 21845 10922 = 32767 ∧ orResult 32768 1 = 1 := by decide
-- A31
theorem test_or_step : (after (booted [13, 32768, 12, 10])).readReg 0 = 14 := by decide
-- A34, A35, A36, A38, A39
theorem test_not : notResult 0 = 32767 ∧ notResult 32767 = 0 ∧ notResult 21845 = 10922 ∧
    notResult 32768 = 32767 ∧ notResult 65535 = 0 := by decide
-- the example of R166
theorem test_not_step : (after (booted [14, 32771, 21845])).readReg 3 = 10922 ∧
    (after (booted [14, 32771, 21845])).pc = 3 := by decide
-- M4, M2b
theorem test_rmem : (after (booted [15, 32768, 1, 0])).readReg 0 = 32768 ∧
    record (after (booted [15, 32768, 32767])) = some (8, some 0, .cell 32767) := by decide
-- M2, M7
theorem test_rmem_last_cell : (after ((booted [15, 32768, 32766, 0]).writeReg 0 9)).readReg 0 = 0 ∧
    (after { booted [15, 32768, 32767, 0] with config := { Config.standard with memCapacity := 32768 } }).status =
      .running := by decide
-- M1, M3
theorem test_wmem : (after (booted [16, 100, 21845])).mem.readCell 100 = 21845 ∧
    record (after (booted [16, 32767, 1])) = some (8, some 0, .cell 32767) := by decide
-- M8: the store is seen by the next fetch
theorem test_wmem_code : (after (after (booted [16, 3, 0, 21]))).status = .halted := by decide
-- the example of R190, and C4
theorem test_call : (after ((booted [0, 0, 17, 7]).setPc 2)).stack = [4] ∧
    (after ((booted [0, 0, 17, 7]).setPc 2)).pc = 7 ∧
    record (after (booted [17, 32767])) = some (9, some 0, .cell 32767) := by decide
-- C7, C8: the target is checked before the depth
theorem test_call_bounded :
    record (after { booted [17, 32767] with
      stack := [5], config := { Config.standard with stackCapacity := some 1 } }) = some (9, some 0, .cell 32767) ∧
    record (after { booted [17, 0] with
      stack := [5], config := { Config.standard with stackCapacity := some 1 } }) = some (11, some 0, .none) := by decide
-- the example of R191
theorem test_ret : (after ((booted [18]).setStack [4, 42])).pc = 4 ∧
    (after ((booted [18]).setStack [4, 42])).stack = [42] := by decide
-- C2, C5
theorem test_ret_ends : (after (booted [18])).status = .returned ∧ (after (booted [18])).pc = 1 ∧
    record (after ((booted [18]).setStack [32767])) = some (9, some 0, .cell 32767) := by decide
-- IO2, IO3
theorem test_out : (after (booted [19, 255, 0])).output = [255] ∧
    record (after (booted [19, 256])) = some (7, some 0, .cell 256) ∧ (after (booted [19, 256])).output = [] := by decide
-- IO5, IO6, IO7, IO9
theorem test_in : (after (booted [20, 32768, 0] [.char 65])).readReg 0 = 65 ∧
    (after (booted [20, 32768, 0] [.endOfInput])).status = .inputEof ∧
    record (after (booted [20, 32768, 0] [.ioError])) = some (10, some 0, .none) ∧
    after (booted [20, 32768, 0]) = booted [20, 32768, 0] := by decide
-- IO8: the channel is not asked
theorem test_in_literal : record (after (booted [20, 5] [.char 65])) = some (4, some 0, .cell 5) ∧
    (after (booted [20, 5] [.char 65])).input = [.char 65] := by decide

/-! ## Decode faults, load and notation -/

-- D1, D2, D3, D4: opcode, then slot by slot, before the destination
theorem test_decode_faults : record (after (booted [22])) = some (1, some 0, .cell 22) ∧
    record (after (booted [1, 32768, 32776])) = some (2, some 0, .operand .b 32776) ∧
    record (after (booted [1, 32776, 32776])) = some (2, some 0, .operand .a 32776) ∧
    record (after (booted [1, 5, 32776])) = some (2, some 0, .operand .b 32776) := by decide
-- D6 (last step), D9
theorem test_operand_past_end :
    record (after (((State.reset).storeCell 32766 19).setPc 32766)) = some (3, some 32766, .cell 32767) ∧
    record (after (State.boot { Config.standard with memCapacity := 2 } [9, 0, 0, 128] [])) =
      some (3, some 0, .cell 2) := by decide
-- B2, B3, B7
theorem test_load : record (State.boot Config.standard [0] []) = some (12, none, .imageLength 1) ∧
    (State.boot Config.standard [19, 0, 65, 0] []).mem.readCell 1 = 65 ∧
    (State.boot { Config.standard with memCapacity := 2 } [21, 0, 21, 0, 7, 0] []).mem.readCell 2 = 0 := by decide

/-- P1 of 95_test_vectors.md, in the notation of R70, and its words. -/
theorem test_assemble_P1 :
    assemble "Set reg0 5; Set reg1 6; Add reg0 reg0 reg1; Out reg0; Halt".toList =
      some [1, 32768, 5, 1, 32769, 6, 9, 32768, 32768, 32769, 19, 32768, 0] := by decide

/-- The loop of P3, with its label. -/
theorem test_assemble_label :
    assemble "Set r0 3\nloop: Add r1 r0 48\nOut r1\nAdd r0 r0 32767\nJt r0 loop\nHalt".toList =
      some [1, 32768, 3, 9, 32769, 32768, 48, 19, 32769, 9, 32768, 32768, 32767, 7, 32768, 3, 0] := by decide

/-- What R70 does not write is refused: an unknown mnemonic, a wrong operand count, a literal above 32767. -/
theorem test_assemble_refuses : assemble "Sub r0 1 2".toList = none ∧ assemble "Push".toList = none ∧
    assemble "Push 32768".toList = none := by decide

/-! ## Witnesses: a concrete input for the hypotheses of each statement that has some, clause by clause -/

/-- A CORE with a stack bound of 1 and one entry. -/
def full : State := { State.reset with stack := [5], config := { Config.standard with stackCapacity := some 1 } }

/-- Zeroed registers and an empty stack hold Words. -/
theorem zeroed_holdsWords {s : State} (hr : s.regs = Regs.zero) (hs : s.stack = []) : s.HoldsWords :=
  ⟨fun i => by simp [State.readReg, hr], by simp [hs]⟩

theorem witness_OperandWordsClassify :
    (32767#16).toNat ≤ 32767 ∧ 32768 ≤ (32768#16).toNat ∧ (32775#16).toNat ≤ 32775 ∧ 32776 ≤ (32776#16).toNat := by decide
theorem witness_OpcodeWordSelects : (21#16).toNat ≤ 21 ∧ 22 ≤ (22#16).toNat := by decide
theorem witness_DecodedWordsAreTheEncoding : decode [2, 42, 7] = .ok (.push (.lit 42)) := by decide
theorem witness_NoopOnlyAdvances : ((State.reset).setPc 32766).status = .running ∧
    ((State.reset).setPc 32766).config.memCapacity ≤ 32768 ∧
    ((State.reset).setPc 32766).pc.toNat + 1 = ((State.reset).setPc 32766).config.memCapacity := by decide
theorem witness_PushStoresOnTop : full.config.stackCapacity = some full.stack.length ∧
    State.reset.config.stackCapacity ≠ some State.reset.stack.length := by decide
theorem witness_PopTakesTop : State.reset.stack = [] ∧ full.stack = 5 :: [] := by decide
theorem witness_EqWritesOneOrZero : State.reset.value (.lit 7) = State.reset.value (.lit 7) ∧
    State.reset.value (.lit 7) ≠ State.reset.value (.reg 0) := by decide
theorem witness_GtWritesOneOrZero : (State.reset.value (.lit 6)).toNat > (State.reset.value (.lit 5)).toNat ∧
    (State.reset.value (.lit 5)).toNat ≤ (State.reset.value (.lit 5)).toNat := by decide
theorem witness_JmpTransfers : (State.reset.value (.lit 32766)).toNat < State.reset.config.memCapacity ∧
    State.reset.config.memCapacity ≤ (State.reset.value (.lit 32767)).toNat := by decide
theorem witness_JtTransfersWhenNonzero : State.reset.value (.reg 0) = 0#16 ∧ State.reset.value (.lit 1) ≠ 0#16 ∧
    (State.reset.value (.lit 32766)).toNat < State.reset.config.memCapacity ∧
    State.reset.config.memCapacity ≤ (State.reset.value (.lit 32767)).toNat := by decide
theorem witness_JfTransfersWhenZero : State.reset.value (.lit 1) ≠ 0#16 ∧ State.reset.value (.lit 0) = 0#16 ∧
    (State.reset.value (.lit 32766)).toNat < State.reset.config.memCapacity ∧
    State.reset.config.memCapacity ≤ (State.reset.value (.lit 32767)).toNat := by decide
theorem witness_ModWritesRemainder : State.reset.value (.reg 0) = 0#16 ∧ State.reset.value (.lit 1) ≠ 0#16 := by decide
theorem witness_NotWritesComplement : (State.reset.value (.lit 32767)).toNat ≤ 32767 := by decide
theorem witness_RmemCopiesCell : State.reset.config.memCapacity ≤ (State.reset.value (.lit 32767)).toNat ∧
    (State.reset.value (.lit 32766)).toNat < State.reset.config.memCapacity := by decide
theorem witness_WmemWritesCell : State.reset.config.memCapacity ≤ (State.reset.value (.lit 32767)).toNat ∧
    (State.reset.value (.lit 32766)).toNat < State.reset.config.memCapacity ∧
    (State.reset.pc + 3).toNat + 3 = (State.reset.value (.lit 6)).toNat := by decide
theorem witness_CallPushesAndTransfers : full.config.memCapacity ≤ (full.value (.lit 32767)).toNat ∧
    (full.value (.lit 32766)).toNat < full.config.memCapacity ∧ full.config.stackCapacity = some full.stack.length ∧
    (State.reset.value (.lit 32766)).toNat < State.reset.config.memCapacity ∧
    State.reset.config.stackCapacity ≠ some State.reset.stack.length := by decide
theorem witness_RetTransfersToTop : State.reset.stack = [] ∧
    ((State.reset).setStack [32766]).stack = 32766 :: [] ∧ (32766#16).toNat < State.reset.config.memCapacity ∧
    ((State.reset).setStack [32767]).stack = 32767 :: [] ∧ State.reset.config.memCapacity ≤ (32767#16).toNat := by decide
theorem witness_OutEmitsCode : 255 < (State.reset.value (.lit 256)).toNat ∧ (State.reset.value (.lit 255)).toNat ≤ 255 := by decide
theorem witness_InTakesOneResponse : (booted [] [.char 32767]).input = .char 32767 :: [] ∧
    (booted [] [.endOfInput]).input = .endOfInput :: [] ∧ (booted [] [.ioError]).input = .ioError :: [] ∧
    (booted []).input = [] := by decide
theorem witness_LiteralDestinationFaults : (Instr.pop (.lit 7)).destination = some (.lit 7) := by decide
theorem witness_FaultingStepCommitsNothing : (booted [3, 32768]).status = .running ∧
    (∃ t, step (booted [3, 32768]) = .next t ∧ t.status = .faulted) := ⟨by decide, _, rfl, by decide⟩
theorem witness_OnlyDestinationRegisterChanges :
    ∃ t, exec (.set (.reg 3) (.lit 5)) State.reset = .next t ∧ t.readReg 3 ≠ State.reset.readReg 3 :=
  ⟨_, rfl, by decide⟩
theorem witness_OnlyWmemChangesMemory :
    ∃ t, exec (.wmem (.lit 100) (.lit 5)) State.reset = .next t ∧ t.mem.readByte 200 ≠ State.reset.mem.readByte 200 :=
  ⟨_, rfl, by decide⟩
theorem witness_OnlyStackInstructionsChangeStack :
    (∃ t, exec (.push (.lit 5)) State.reset = .next t ∧ t.stack ≠ State.reset.stack) ∧
    (∃ t, exec (.call (.lit 7)) State.reset = .next t ∧ t.stack ≠ State.reset.stack) ∧
    (∃ t, exec (.pop (.reg 1)) full = .next t ∧ t.stack ≠ full.stack) ∧
    (∃ t, exec .ret full = .next t ∧ t.stack ≠ full.stack) :=
  ⟨⟨_, rfl, by decide⟩, ⟨_, rfl, by decide⟩, ⟨_, rfl, by decide⟩, ⟨_, rfl, by decide⟩⟩
theorem witness_OnlyOutEmits : ∃ t, exec (.out (.lit 65)) State.reset = .next t ∧ t.output = [65] :=
  ⟨_, rfl, by decide⟩
theorem witness_OnlyInTakesResponses :
    ∃ t, exec (.in_ (.reg 0)) (booted [] [.char 65, .endOfInput]) = .next t ∧ t.input = [.endOfInput] :=
  ⟨_, rfl, by decide⟩
theorem witness_OnlyTransfersSetPc :
    (∃ t, exec .noop State.reset = .next t ∧ t.status ≠ .faulted ∧ t.pc = 1) ∧
    (∃ t, exec (.jmp (.lit 9)) State.reset = .next t ∧ t.status ≠ .faulted ∧ t.pc = 9) ∧
    (∃ t, exec (.in_ (.reg 0)) State.reset = .next t ∧ t.status ≠ .faulted ∧ t.pc = 0) :=
  ⟨⟨_, rfl, by decide⟩, ⟨_, rfl, by decide⟩, ⟨_, rfl, by decide⟩⟩
theorem witness_StepRunsDecodedInstruction : (booted [2, 42]).status = .running ∧
    (booted [2, 42]).pc.toNat < (booted [2, 42]).config.memCapacity ∧
    decode (booted [2, 42]).fetchCells = .ok (.push (.lit 42)) := by decide
theorem witness_StepRunsInstructionInMemory : (booted [2, 42]).status = .running ∧
    (booted [2, 42]).pc.toNat + (Instr.push (.lit 42)).length ≤ (booted [2, 42]).config.memCapacity ∧
    (∀ k w, (encode (.push (.lit 42)))[k]? = some w →
      (booted [2, 42]).mem.readCell ((booted [2, 42]).pc.toNat + k) = w) := by
  refine ⟨by decide, by decide, fun k w h => ?_⟩
  match k, h with
  | 0, h => simp only [encode, List.getElem?_cons_zero, Option.some.injEq] at h; subst h; decide
  | 1, h => simp [encode, Instr.operands] at h; subst h; decide
  | k + 2, h => simp [encode, Instr.operands] at h
theorem witness_UnknownOpcodeFaults : (booted [22]).status = .running ∧
    (booted [22]).pc.toNat < (booted [22]).config.memCapacity ∧
    22 ≤ ((booted [22]).mem.readCell (booted [22]).pc.toNat).toNat := by decide
theorem witness_InvalidOperandWordFaults : (booted [1, 5, 32776]).status = .running ∧
    arityOfOpcode ((booted [1, 5, 32776]).mem.readCell (booted [1, 5, 32776]).pc.toNat) = some 2 ∧
    Slot.b.number ≤ 2 ∧
    (booted [1, 5, 32776]).pc.toNat + Slot.b.number < (booted [1, 5, 32776]).config.memCapacity ∧
    32776 ≤ ((booted [1, 5, 32776]).mem.readCell ((booted [1, 5, 32776]).pc.toNat + Slot.b.number)).toNat ∧
    (∀ k : Slot, k.number < Slot.b.number →
      ((booted [1, 5, 32776]).mem.readCell ((booted [1, 5, 32776]).pc.toNat + k.number)).toNat ≤ 32775) := by
  refine ⟨by decide, by decide, by decide, by decide, by decide, fun k => ?_⟩
  cases k <;> decide
theorem witness_OperandPastEndFaults :
    (((State.reset).storeCell 32766 19).setPc 32766).status = .running ∧
    (32766#16).toNat < State.reset.config.memCapacity ∧
    arityOfOpcode ((((State.reset).storeCell 32766 19).setPc 32766).mem.readCell 32766) = some 1 ∧
    Slot.a.number ≤ 1 ∧ State.reset.config.memCapacity = (32766#16).toNat + Slot.a.number ∧
    (∀ k : Slot, ¬ k.number < Slot.a.number) := by
  refine ⟨by decide, by decide, by decide, by decide, by decide, fun k => ?_⟩
  cases k <;> decide
theorem witness_FetchAtEndOfMemoryEnds : ((State.reset).setPc 32767).status = .running ∧
    ((State.reset).setPc 32767).pc.toNat = ((State.reset).setPc 32767).config.memCapacity := by decide
theorem witness_NoStepLeavesStateUnchanged :
    (booted [20, 32768]).pc.toNat ≤ (booted [20, 32768]).config.memCapacity ∧ (booted [20, 32768]).canStep = false ∧
    (State.reset.ended .halted).pc.toNat ≤ (State.reset.ended .halted).config.memCapacity ∧
    (State.reset.ended .halted).canStep = false := by decide
theorem witness_RunEndsOnlyAsListed : (booted [18]).status = .running ∧
    (∃ t, step (booted [18]) = .next t ∧ t.status = .returned) := ⟨by decide, _, rfl, by decide⟩
theorem witness_MemoryReadsWhatWasWritten : Memory.wf [(3, 7)] = true ∧ Memory.wf (Memory.writeByte [] 3 7) = true ∧
    Memory.wf [(3, 0)] = false ∧ Memory.wf [(3, 1), (3, 2)] = false := by decide
theorem witness_StoredOpcodeRunsNext : (booted [16, 3, 0, 21]).status = .running ∧
    decode (booted [16, 3, 0, 21]).fetchCells = .ok (.wmem (.lit 3) (.lit 0)) ∧
    ((booted [16, 3, 0, 21]).value (.lit 3)).toNat = (booted [16, 3, 0, 21]).pc.toNat + 3 ∧
    (booted [16, 3, 0, 21]).pc.toNat + 3 < (booted [16, 3, 0, 21]).config.memCapacity ∧
    Instr.halt.arity = 0 ∧ (booted [16, 3, 0, 21]).value (.lit 0) = Instr.halt.opcode := by decide
theorem witness_PushThenPopRoundTrip : State.reset.config.stackCapacity ≠ some State.reset.stack.length := by decide
theorem witness_RetReturnsAfterCall :
    ∃ t, exec (.call (.lit 7)) State.reset = .next t ∧ t.status ≠ .faulted ∧ t.config = State.reset.config ∧
      State.reset.pc.toNat + 2 < State.reset.config.memCapacity ∧ State.reset.config.memCapacity ≤ 32768 :=
  ⟨_, rfl, by decide⟩
theorem witness_AddingComplementSubtracts : 1 ≤ 32768 ∧ (State.reset.value (.lit 32767)).toNat = 32768 - 1 := by decide
theorem witness_ResetLoadsImage : ([19, 0, 65, 0] : List Byte).length % 2 = 0 ∧ 1 < Config.standard.memCapacity ∧
    ([19, 0, 65, 0] : List Byte)[2 * 1]? = some 65 ∧ ([19, 0, 65, 0] : List Byte)[2 * 1 + 1]? = some 0 ∧
    ([19, 0, 65, 0] : List Byte).length ≤ 2 * 2 ∧ ([19] : List Byte).length % 2 = 1 := by decide
theorem witness_FailedLoadNeverRuns : ([0, 0, 0] : List Byte).length % 2 = 1 := by decide
theorem witness_ResetMeetsInvariant : Config.standard.wf := by decide
theorem witness_StepKeepsInvariant : State.reset.Inv :=
  ⟨by decide, rfl, rfl, by decide, by simp [State.reset, Config.standard], rfl, by simp [State.reset]⟩
theorem witness_RunsOnlyGrowOutput : (∃ t, run 2 (booted [19, 65, 0]) = .next t ∧ t.output = [65]) ∧
    (State.reset.ended .halted).over = true := ⟨⟨_, rfl, by decide⟩, by decide⟩
theorem witness_WordRangeIsKept : (booted [15, 32768, 2]).config.memCapacity ≤ 32767 ∧
    (booted [15, 32768, 2]).HoldsWords ∧
    decode (booted [15, 32768, 2]).fetchCells = .ok (.rmem (.reg 0) (.lit 2)) ∧
    ((booted [15, 32768, 2]).mem.readCell 2).toNat ≤ 32767 ∧
    (∃ t, step (booted [15, 32768, 2]) = .next t) :=
  ⟨by decide, zeroed_holdsWords rfl rfl, by decide, by decide, _, rfl⟩
theorem witness_WordMemoryIsKept : State.reset.config.memCapacity ≤ 32767 ∧ State.reset.HoldsWords ∧
    State.reset.MemoryHoldsWords ∧ (∃ t, step State.reset = .next t) :=
  ⟨by decide, zeroed_holdsWords rfl rfl, fun a _ => by simp [State.reset], _, rfl⟩
theorem witness_OutputIsNeverReadBack : ∃ t, step (booted [19, 65]) = .next t := ⟨_, rfl⟩
theorem witness_EntriesBelowTopAreUntouched : ((booted [3, 32768]).setStack [8]).config.stackCapacity = none ∧
    ((booted [3, 32768]).setStack [8]).stack ≠ [] ∧
    (∃ t, step ((booted [3, 32768]).setStack [8]) = .next t) := ⟨by decide, by decide, _, rfl⟩

end Sys2Proof.Machine.Tests
end

section
/-! What reset with an image leaves, field by field (spec/70_reset_and_hazards.md R400 to R405). -/

namespace Sys2Proof.Machine

/-- Neither case of the load writes a register (R34). -/
@[simp] theorem State.boot_readReg (c : Config) (image : List Byte) (rs : List Response) (i : Fin 8) :
    (State.boot c image rs).readReg i = 0 := by
  rcases Nat.mod_two_eq_zero_or_one image.length with h | h
  · rw [State.boot_even h]; exact Regs.get_zero i
  · rw [State.boot_odd h]; exact Regs.get_zero i

@[simp] theorem State.boot_stack (c : Config) (image : List Byte) (rs : List Response) :
    (State.boot c image rs).stack = [] := by
  rcases Nat.mod_two_eq_zero_or_one image.length with h | h
  · rw [State.boot_even h]; rfl
  · rw [State.boot_odd h]; rfl

@[simp] theorem State.boot_pc (c : Config) (image : List Byte) (rs : List Response) :
    (State.boot c image rs).pc = 0 := by
  rcases Nat.mod_two_eq_zero_or_one image.length with h | h
  · rw [State.boot_even h]; rfl
  · rw [State.boot_odd h]; rfl

/-- Every cell after an even load: the image's own cell where both the image and memory reach, else 0. -/
theorem State.boot_readCell {c : Config} {image : List Byte} {rs : List Response} (h : image.length % 2 = 0) (k : Nat) :
    (State.boot c image rs).mem.readCell k =
      if k < c.memCapacity then ((cellsOfBytes image)[k]?).getD 0 else 0 := by
  rw [State.boot_even h]
  simp [Memory.readCell_storeFrom]

/-- A cell of memory that the image covers holds its two bytes, low byte first (R403). -/
theorem State.boot_readCell_of_bytes {c : Config} {image : List Byte} {rs : List Response} {k : Nat} {lo hi : Byte}
    (h : image.length % 2 = 0) (hk : k < c.memCapacity) (hlo : image[2 * k]? = some lo)
    (hhi : image[2 * k + 1]? = some hi) : (State.boot c image rs).mem.readCell k = hi ++ lo := by
  rw [State.boot_readCell h, if_pos hk, cellsOfBytes_getElem? image k lo hi hlo hhi, Option.getD_some]

/-- A cell past the image, or past the end of memory, reads 0 (R403, R405). -/
theorem State.boot_readCell_of_uncovered {c : Config} {image : List Byte} {rs : List Response} {k : Nat}
    (h : image.length % 2 = 0) (hk : image.length ≤ 2 * k ∨ c.memCapacity ≤ k) :
    (State.boot c image rs).mem.readCell k = 0 := by
  rw [State.boot_readCell h]
  rcases hk with hend | hcap
  · have hnone : (cellsOfBytes image)[k]? = none :=
      List.getElem?_eq_none (by rw [cellsOfBytes_length]; omega)
    rw [hnone, Option.getD_none, ite_self]
  · exact if_neg (by omega)

/-- Settles O51: the registers, stack and pc are reset's whichever case the load takes; an even image is read back through
`readCell_storeFrom`, an odd one is the LoadError record. -/
theorem resetLoadsImage : Obligations.ResetLoadsImage := by
  intro c image rs
  refine ⟨State.boot_readReg c image rs, State.boot_stack c image rs, State.boot_pc c image rs, fun heven => ?_, fun hodd => ?_⟩
  · refine ⟨fun k lo hi hk hlo hhi => ?_, fun k hk => State.boot_readCell_of_uncovered heven hk, ?_, ?_⟩
    · rw [State.boot_readCell_of_bytes heven hk hlo hhi, toNat_cell_of_bytes]
    · rw [State.boot_even heven]; rfl
    · rw [State.boot_even heven]; rfl
  · rw [State.boot_odd hodd]
    exact ⟨State.faulted_status _ _, State.faulted_faultRecord _ _⟩

end Sys2Proof.Machine
end

section
/-! Operand words and opcode words (spec/30_encoding.md R61 to R64). -/

namespace Sys2Proof

@[simp] theorem Operand.toNat_encode_lit (n : Word) : (Operand.lit n).encode.toNat = n.toNat := by
  have := n.isLt
  simp [Operand.encode]; omega

@[simp] theorem Operand.toNat_encode_reg (i : Fin 8) : (Operand.reg i).encode.toNat = 32768 + i.val := by
  simp [Operand.encode, regBase]; omega

/-- A word the classification takes is the operand's own word, so its value says which operand that is (R64). -/
theorem toNat_encode_of_classify {slot : Slot} {w : Cell} {o : Operand} (h : classify slot w = .ok o) :
    o.encode.toNat = w.toNat := congrArg BitVec.toNat (encode_of_classify h)

theorem exists_classify_lit (slot : Slot) {w : Cell} (h : w.toNat ≤ 32767) :
    ∃ n : Word, classify slot w = .ok (.lit n) ∧ n.toNat = w.toNat := by
  have hc := classify_lit slot w h
  exact ⟨_, hc, by rw [← toNat_encode_of_classify hc, Operand.toNat_encode_lit]⟩

theorem exists_classify_reg (slot : Slot) {w : Cell} (hlo : 32768 ≤ w.toNat) (hhi : w.toNat ≤ 32775) :
    ∃ i : Fin 8, classify slot w = .ok (.reg i) ∧ 32768 + i.val = w.toNat := by
  obtain ⟨o, hc⟩ := classify_ok_of_le slot w hhi
  have hw := toNat_encode_of_classify hc
  cases o with
  | lit n =>
    have := n.isLt
    rw [Operand.toNat_encode_lit] at hw
    omega
  | reg i => exact ⟨i, hc, by rw [← hw, Operand.toNat_encode_reg]⟩

/-- Settles O2: in the first two ranges the operand is read off from its own word; above them no case of R64 applies. -/
theorem operandWordsClassify : Obligations.OperandWordsClassify := fun slot w =>
  ⟨exists_classify_lit slot, exists_classify_reg slot, classify_invalid slot w⟩

/-! ### What each format decodes, and how it fails -/

theorem classify_ne_unknownOpcode (slot : Slot) (w v : Cell) : classify slot w ≠ .error (.unknownOpcode v) := by
  by_cases hw : w.toNat ≤ 32775
  · obtain ⟨o, hc⟩ := classify_ok_of_le slot w hw
    simp [hc]
  · simp [classify_invalid slot w (by omega)]

theorem readOperand_ne_unknownOpcode (slot : Slot) (ws : List Cell) (v : Cell) :
    readOperand slot ws ≠ .error (.unknownOpcode v) := by
  cases ws with
  | nil => simp [readOperand]
  | cons w ws =>
    have hw := classify_ne_unknownOpcode slot w v
    cases hc : classify slot w with
    | ok o => simp [readOperand, hc]
    | error e => simpa [readOperand, hc] using hw

theorem decodeF1_ne_unknownOpcode (mk : Operand → Instr) (ws : List Cell) (v : Cell) :
    decodeF1 mk ws ≠ .error (.unknownOpcode v) := by
  have ha := readOperand_ne_unknownOpcode .a ws v
  cases hr : readOperand .a ws with
  | error e => simpa [decodeF1, hr] using ha
  | ok r => simp [decodeF1, hr]

theorem decodeF2_ne_unknownOpcode (mk : Operand → Operand → Instr) (ws : List Cell) (v : Cell) :
    decodeF2 mk ws ≠ .error (.unknownOpcode v) := by
  have ha := readOperand_ne_unknownOpcode .a ws v
  cases hr : readOperand .a ws with
  | error e => simpa [decodeF2, hr] using ha
  | ok r =>
    have hb := readOperand_ne_unknownOpcode .b r.2 v
    cases hr₁ : readOperand .b r.2 with
    | error e => simpa [decodeF2, hr, hr₁] using hb
    | ok r₁ => simp [decodeF2, hr, hr₁]

theorem decodeF3_ne_unknownOpcode (mk : Operand → Operand → Operand → Instr) (ws : List Cell) (v : Cell) :
    decodeF3 mk ws ≠ .error (.unknownOpcode v) := by
  have ha := readOperand_ne_unknownOpcode .a ws v
  cases hr : readOperand .a ws with
  | error e => simpa [decodeF3, hr] using ha
  | ok r =>
    have hb := readOperand_ne_unknownOpcode .b r.2 v
    cases hr₁ : readOperand .b r.2 with
    | error e => simpa [decodeF3, hr, hr₁] using hb
    | ok r₁ =>
      have hc := readOperand_ne_unknownOpcode .c r₁.2 v
      cases hr₂ : readOperand .c r₁.2 with
      | error e => simpa [decodeF3, hr, hr₁, hr₂] using hc
      | ok r₂ => simp [decodeF3, hr, hr₁, hr₂]

@[simp] theorem decodeF1_encode (mk : Operand → Instr) (a : Operand) (rest : List Cell) :
    decodeF1 mk (a.encode :: rest) = .ok (mk a) := by
  simp [decodeF1, readOperand_encode]

@[simp] theorem decodeF2_encode (mk : Operand → Operand → Instr) (a b : Operand) (rest : List Cell) :
    decodeF2 mk (a.encode :: b.encode :: rest) = .ok (mk a b) := by
  simp [decodeF2, readOperand_encode]

@[simp] theorem decodeF3_encode (mk : Operand → Operand → Operand → Instr) (a b c : Operand) (rest : List Cell) :
    decodeF3 mk (a.encode :: b.encode :: c.encode :: rest) = .ok (mk a b c) := by
  simp [decodeF3, readOperand_encode]

/-! ### The opcode map -/

/-- The opcode word `w` has a row in the table of R63: the row's format, and the constructor that the decoder and the encoder
agree on. -/
inductive HasRow (w : Cell) : Prop
  | f0 (i : Instr) (henc : encode i = [w]) (hdec : ∀ ws, decode (w :: ws) = .ok i)
  | f1 (mk : Operand → Instr) (henc : ∀ a, encode (mk a) = [w, a.encode])
      (hdec : ∀ ws, decode (w :: ws) = decodeF1 mk ws)
  | f2 (mk : Operand → Operand → Instr) (henc : ∀ a b, encode (mk a b) = [w, a.encode, b.encode])
      (hdec : ∀ ws, decode (w :: ws) = decodeF2 mk ws)
  | f3 (mk : Operand → Operand → Operand → Instr)
      (henc : ∀ a b c, encode (mk a b c) = [w, a.encode, b.encode, c.encode])
      (hdec : ∀ ws, decode (w :: ws) = decodeF3 mk ws)

/-- The table of R63, row by row. -/
theorem hasRow_ofNat : ∀ k ≤ 21, HasRow (BitVec.ofNat 16 k)
  | 0, _ => .f0 .halt rfl fun _ => rfl
  | 1, _ => .f2 .set (fun _ _ => rfl) fun _ => rfl
  | 2, _ => .f1 .push (fun _ => rfl) fun _ => rfl
  | 3, _ => .f1 .pop (fun _ => rfl) fun _ => rfl
  | 4, _ => .f3 .eq (fun _ _ _ => rfl) fun _ => rfl
  | 5, _ => .f3 .gt (fun _ _ _ => rfl) fun _ => rfl
  | 6, _ => .f1 .jmp (fun _ => rfl) fun _ => rfl
  | 7, _ => .f2 .jt (fun _ _ => rfl) fun _ => rfl
  | 8, _ => .f2 .jf (fun _ _ => rfl) fun _ => rfl
  | 9, _ => .f3 .add (fun _ _ _ => rfl) fun _ => rfl
  | 10, _ => .f3 .mult (fun _ _ _ => rfl) fun _ => rfl
  | 11, _ => .f3 .mod (fun _ _ _ => rfl) fun _ => rfl
  | 12, _ => .f3 .and (fun _ _ _ => rfl) fun _ => rfl
  | 13, _ => .f3 .or (fun _ _ _ => rfl) fun _ => rfl
  | 14, _ => .f2 .not (fun _ _ => rfl) fun _ => rfl
  | 15, _ => .f2 .rmem (fun _ _ => rfl) fun _ => rfl
  | 16, _ => .f2 .wmem (fun _ _ => rfl) fun _ => rfl
  | 17, _ => .f1 .call (fun _ => rfl) fun _ => rfl
  | 18, _ => .f0 .ret rfl fun _ => rfl
  | 19, _ => .f1 .out (fun _ => rfl) fun _ => rfl
  | 20, _ => .f1 .in_ (fun _ => rfl) fun _ => rfl
  | 21, _ => .f0 .noop rfl fun _ => rfl
  | k + 22, h => absurd h (by omega)

theorem hasRow_of_le {w : Cell} (h : w.toNat ≤ 21) : HasRow w := by
  simpa using hasRow_ofNat w.toNat h

theorem decode_unknownOpcode {w : Cell} (h : 22 ≤ w.toNat) (ws : List Cell) :
    decode (w :: ws) = .error (.unknownOpcode w) := by
  obtain ⟨k, hk⟩ := Nat.exists_eq_add_of_le' h
  rw [decode, hk]
  rfl

theorem opcode_of_encode {i : Instr} {w : Cell} {ws : List Cell} (h : encode i = w :: ws) : i.opcode = w :=
  (List.cons.inj h).1

/-- Each row has an instruction; operands that are the literal 0 show it. -/
theorem HasRow.exists_instr {w : Cell} (h : HasRow w) : ∃ i, i.opcode = w ∧ decode (encode i) = .ok i := by
  cases h with
  | f0 i henc hdec => exact ⟨i, opcode_of_encode henc, by rw [henc, hdec]⟩
  | f1 mk henc hdec =>
    exact ⟨mk (.lit 0), opcode_of_encode (henc _), by rw [henc, hdec, decodeF1_encode]⟩
  | f2 mk henc hdec =>
    exact ⟨mk (.lit 0) (.lit 0), opcode_of_encode (henc _ _), by rw [henc, hdec, decodeF2_encode]⟩
  | f3 mk henc hdec =>
    exact ⟨mk (.lit 0) (.lit 0) (.lit 0), opcode_of_encode (henc _ _ _), by rw [henc, hdec, decodeF3_encode]⟩

/-- What decodes behind a row's word is an instruction of that row. -/
theorem HasRow.opcode_of_decode {w : Cell} {ws : List Cell} {i : Instr} (h : HasRow w)
    (hd : decode (w :: ws) = .ok i) : i.opcode = w := by
  cases h with
  | f0 j henc hdec =>
    rw [hdec, Except.ok.injEq] at hd
    exact hd ▸ opcode_of_encode henc
  | f1 mk henc hdec =>
    obtain ⟨a, _, _, rfl⟩ := decodeF1_ok ((hdec ws).symm.trans hd)
    exact opcode_of_encode (henc a)
  | f2 mk henc hdec =>
    obtain ⟨a, b, _, _, rfl⟩ := decodeF2_ok ((hdec ws).symm.trans hd)
    exact opcode_of_encode (henc a b)
  | f3 mk henc hdec =>
    obtain ⟨a, b, c, _, _, rfl⟩ := decodeF3_ok ((hdec ws).symm.trans hd)
    exact opcode_of_encode (henc a b c)

theorem HasRow.decode_ne_unknownOpcode {w : Cell} (h : HasRow w) (ws : List Cell) (v : Cell) :
    decode (w :: ws) ≠ .error (.unknownOpcode v) := by
  cases h with
  | f0 i _ hdec => simp [hdec]
  | f1 mk _ hdec => exact hdec ws ▸ decodeF1_ne_unknownOpcode mk ws v
  | f2 mk _ hdec => exact hdec ws ▸ decodeF2_ne_unknownOpcode mk ws v
  | f3 mk _ hdec => exact hdec ws ▸ decodeF3_ne_unknownOpcode mk ws v

/-- Settles O3: each word 0..21 has its row in the table of R63, which gives the three clauses; any other falls through. -/
theorem opcodeWordSelects : Obligations.OpcodeWordSelects := by
  intro w ws
  refine ⟨fun hle => ?_, fun hge => decode_unknownOpcode hge ws⟩
  have hrow := hasRow_of_le hle
  exact ⟨hrow.exists_instr, fun _ => hrow.opcode_of_decode, hrow.decode_ne_unknownOpcode ws⟩

end Sys2Proof
end

section
/-! The instruction a step decodes lies in memory (spec/30_encoding.md R60, R68). -/

namespace Sys2Proof

@[simp] theorem length_encode (i : Instr) : (encode i).length = 1 + i.arity := by
  simp [encode, Instr.arity, Nat.add_comm]

/-- Behind a row's word the decoder takes exactly the words the encoder writes. -/
theorem HasRow.eq_encode_append_of_decode {w : Cell} {ws : List Cell} {i : Instr} (h : HasRow w)
    (hd : decode (w :: ws) = .ok i) : ∃ rest, w :: ws = encode i ++ rest := by
  cases h with
  | f0 j henc hdec =>
    rw [hdec, Except.ok.injEq] at hd
    exact ⟨ws, by rw [← hd, henc, List.singleton_append]⟩
  | f1 mk henc hdec =>
    obtain ⟨a, rest, rfl, rfl⟩ := decodeF1_ok ((hdec ws).symm.trans hd)
    exact ⟨rest, by simp [henc]⟩
  | f2 mk henc hdec =>
    obtain ⟨a, b, rest, rfl, rfl⟩ := decodeF2_ok ((hdec ws).symm.trans hd)
    exact ⟨rest, by simp [henc]⟩
  | f3 mk henc hdec =>
    obtain ⟨a, b, c, rest, rfl, rfl⟩ := decodeF3_ok ((hdec ws).symm.trans hd)
    exact ⟨rest, by simp [henc]⟩

/-- Cells that decode begin with the encoding of what they decode to. -/
theorem eq_encode_append_of_decode {ws : List Cell} {i : Instr} (hd : decode ws = .ok i) :
    ∃ rest, ws = encode i ++ rest := by
  cases ws with
  | nil => simp [decode] at hd
  | cons w ws =>
    have hw : w.toNat ≤ 21 := by
      by_contra hgt
      simp [decode_unknownOpcode (w := w) (by omega) ws] at hd
    exact (hasRow_of_le hw).eq_encode_append_of_decode hd

end Sys2Proof

namespace Sys2Proof.Machine

/-- `fetchCells` ends where memory does, so all words of a decoded instruction are cells of memory. -/
theorem State.decoded_fits {s : State} {i : Instr} (hp : s.pc.toNat < s.config.memCapacity)
    (hd : decode s.fetchCells = .ok i) : s.pc.toNat + 1 + i.arity ≤ s.config.memCapacity := by
  obtain ⟨rest, hws⟩ := eq_encode_append_of_decode hd
  have hlen := s.fetchCells_length
  rw [hws, List.length_append, length_encode] at hlen
  omega

end Sys2Proof.Machine
end

section
/-! The invariant under each update of the state, then under an instruction and under a step (spec/10_state.md sections 3 to 6). -/

namespace Sys2Proof.Machine

/-! ### One rule per update -/

/-- A state that has not faulted has no fault record (R31). -/
theorem State.Inv.faultRecord_eq_none {s : State} (h : s.Inv) (hs : s.status ≠ .faulted) : s.faultRecord = none := by
  simpa [hs] using h.record

theorem State.Inv.writeReg {s : State} (h : s.Inv) (i : Fin 8) (v : Cell) : (s.writeReg i v).Inv :=
  { h with }

theorem State.Inv.emit {s : State} (h : s.Inv) (v : Byte) : (s.emit v).Inv :=
  { h with }

theorem State.Inv.setInput {s : State} (h : s.Inv) (rs : List Response) : (s.setInput rs).Inv :=
  { h with }

theorem State.Inv.setPc {s : State} {v : Cell} (h : s.Inv) (hv : v.toNat ≤ s.config.memCapacity) : (s.setPc v).Inv :=
  { h with pc := hv }

/-- npc is at most `MEM_CAPACITY`, and so does not wrap, when the instruction lies in memory (R24, R101). -/
theorem State.Inv.advance {s : State} {n : Nat} (h : s.Inv) (hfit : s.pc.toNat + 1 + n ≤ s.config.memCapacity) :
    (s.advance n).Inv :=
  h.setPc (by rwa [State.toNat_npc h.config hfit])

theorem State.Inv.storeCell {s : State} {a : Nat} (h : s.Inv) (v : Cell) (ha : a < s.config.memCapacity) :
    (s.storeCell a v).Inv :=
  { h with
    memWf := Memory.wf_writeCell a v h.memWf
    memWithin := Memory.within_writeCell v ha h.memWithin }

/-- A depth that is at most its bound and not equal to it leaves room for one entry (R121, R190). -/
theorem State.Inv.setStack_push {s : State} (h : s.Inv) (v : Cell)
    (hroom : s.config.stackCapacity ≠ some s.stack.length) : (s.setStack (v :: s.stack)).Inv :=
  { h with
    stack := fun n hn => by
      have hle := h.stack n hn
      have hne : s.stack.length ≠ n := fun he => hroom (he ▸ hn)
      exact Nat.lt_of_le_of_ne hle hne }

theorem State.Inv.setStack_pop {s : State} {v : Cell} {rest : List Cell} (h : s.Inv) (hst : s.stack = v :: rest) :
    (s.setStack rest).Inv :=
  { h with
    stack := fun n hn => by
      have hle := h.stack n hn
      rw [hst, List.length_cons] at hle
      exact Nat.le_of_succ_le hle }

/-- The status and the record change together; the record has an address unless the image load made it (R31, R301). -/
theorem State.Inv.faulted {s : State} {r : FaultRecord} (h : s.Inv) (hr : r.addr = none ↔ r.kind = .loadError) :
    (s.faulted r).Inv :=
  { h with
    record := rfl
    recordAddr := fun _ hsome => Option.some.inj hsome ▸ hr }

/-- A fault of a step has the address of its instruction (R302). -/
theorem State.Inv.faulted_at {s : State} {k : FaultKind} {p : Cell} {info : FaultInfo} (h : s.Inv)
    (hk : k ≠ .loadError) : (s.faulted { kind := k, addr := some p, info := info }).Inv :=
  h.faulted (by simp [hk])

/-- A run that has not faulted can end without a fault: it has no record, and needs none (R31, R304). -/
theorem State.Inv.ended {s : State} {o : Status} (h : s.Inv) (hs : s.status ≠ .faulted) (ho : o ≠ .faulted) :
    (s.ended o).Inv :=
  { h with record := by simp [h.faultRecord_eq_none hs, ho] }

/-! ### An instruction and a step -/

/-- Each shape of an instruction's effect is built from the updates above. -/
theorem Effect.keeps_inv {s t : State} {i : Instr} (he : Effect s i t) (h : s.Inv) (hs : s.status = .running)
    (hfit : s.pc.toNat + 1 + i.arity ≤ s.config.memCapacity) : t.Inv := by
  have hnf : s.status ≠ .faulted := by simp [hs]
  cases he with
  | fault _ k info hk => exact h.faulted_at hk
  | inError r rest hin => exact (h.setInput rest).faulted_at (by simp)
  | advance _ _ => exact h.advance hfit
  | halt => exact (h.ended hnf (by simp)).advance hfit
  | write _ d v _ _ => exact (h.writeReg d v).advance hfit
  | push a hroom => exact (h.setStack_push _ hroom).advance hfit
  | pop d v rest hst => exact ((h.setStack_pop hst).writeReg d v).advance hfit
  | jump _ v _ hv => exact h.setPc hv.le
  | store a b ha => exact (h.storeCell _ ha).advance hfit
  | call a ha hroom => exact (h.setStack_push _ hroom).setPc ha.le
  | returned hst => exact (h.ended hnf (by simp)).advance hfit
  | ret v rest hst hv => exact (h.setStack_pop hst).setPc hv.le
  | out a ha => exact (h.emit _).advance hfit
  | wait r hin => exact h
  | inChar r v rest hin => exact ((h.setInput rest).writeReg r _).advance hfit
  | inEof r rest hin => exact ((h.setInput rest).ended hnf (by simp)).advance hfit

theorem step_keeps_inv {s t : State} (h : s.Inv) (ht : step s = .next t) : t.Inv := by
  rcases step_next ht with ⟨_, rfl⟩ | ⟨hs, _, rfl⟩ | ⟨_, _, e, _, rfl⟩ | ⟨hs, hp, i, hd, hx⟩
  · exact h
  · exact h.ended (by simp [hs]) (by simp)
  · exact h.faulted_at (decodeFault_kind s.pc e)
  · exact (exec_effect hx).keeps_inv h hs (State.decoded_fits hp hd)

/-- The model's one stop is a pc above `MEM_CAPACITY` (notes/assumptions/19.md). -/
theorem step_exists_next {s : State} (hpc : s.pc.toNat ≤ s.config.memCapacity) : ∃ t, step s = .next t := by
  by_cases hs : s.status = .running
  · rcases hpc.eq_or_lt with hp | hp
    · exact ⟨_, step_at_end hs hp⟩
    · cases hd : decode s.fetchCells with
      | error e => exact ⟨_, step_of_decodeError hs hp hd⟩
      | ok i => rw [step_of_decoded hs hp hd]; exact exec_next i s
  · exact ⟨s, step_of_over hs⟩

/-- Settles O54: a legal pc gives a next state; an executed instruction keeps the invariant because all its words lie in memory,
so npc is legal too, and every other change of the state has its rule above. -/
theorem stepKeepsInvariant : Obligations.StepKeepsInvariant := by
  intro s h
  obtain ⟨t, ht⟩ := step_exists_next h.pc
  exact ⟨t, ht, step_keeps_inv h ht⟩

end Sys2Proof.Machine
end

section
/-! Operand values and Noop (spec/40_machine_control.md R102, R107). -/

namespace Sys2Proof.Machine

theorem State.toNat_value_lit (s : State) (n : Word) : (s.value (.lit n)).toNat = n.toNat := by
  rw [State.value_lit, BitVec.toNat_setWidth_of_le (by decide)]

/-- Settles O1: a literal keeps its value when it is widened to a cell; a register operand is the register's content. -/
theorem valueResolvesOperands : Obligations.ValueResolvesOperands := fun s =>
  ⟨s.toNat_value_lit, s.value_reg⟩

theorem exec_noop_eq (s : State) : exec .noop s = .next (s.advance 0) := rfl

theorem State.onlyPc_advance (s : State) (n : Nat) : OnlyPc s (s.advance n) :=
  ⟨fun _ => rfl, fun _ => rfl, rfl, ⟨rfl, rfl⟩, rfl, rfl, rfl⟩

/-- Settles O9: Noop is `advance 0`; from the last cell that leads to `MEM_CAPACITY`, where the run still RUNNING ends. -/
theorem noopOnlyAdvances : Obligations.NoopOnlyAdvances := by
  refine ⟨rfl, fun s => ⟨⟨s.advance 0, exec_noop_eq s, rfl, s.onlyPc_advance 0⟩, fun hs hcap hlast => ?_⟩⟩
  have hpc : (s.advance 0).pc.toNat = s.config.memCapacity :=
    (State.toNat_npc ⟨by omega, hcap⟩ hlast.le).trans hlast
  exact ⟨s.advance 0, _, exec_noop_eq s, hpc, step_at_end hs hpc, rfl⟩

end Sys2Proof.Machine
end

section
/-! The register writers' two ends: the fault of a literal destination and the write of one register, with their frames
(spec/40_machine_control.md R101, R103); then Set (spec/41_register_stack.md R120). -/

namespace Sys2Proof.Machine

/-- A fault of an instruction leaves the record of R302 and emits nothing. -/
theorem State.raise_faulted (s : State) (kind : FaultKind) (info : FaultInfo) :
    ∃ t, s.raise kind info = .next t ∧ Faulted kind info s t :=
  ⟨_, s.raise_eq kind info, s.faulted_status _, s.faulted_faultRecord _, s.faulted_output _⟩

/-- Whatever an instruction would do with its destination register, a literal in its place faults (R103). -/
theorem State.checkDestination_lit_faulted (s : State) (n : Word) (go : Fin 8 → Result) :
    ∃ t, s.checkDestination (.lit n) go = .next t ∧ Faulted .invalidDestination (.cell (n.setWidth 16)) s t :=
  s.raise_faulted _ _

theorem State.onlyRegister_writeReg_advance (s : State) (i : Fin 8) (v : Cell) (n : Nat) :
    OnlyRegister i s ((s.writeReg i v).advance n) :=
  ⟨fun j hj => s.writeReg_readReg_ne i j v hj, fun _ => rfl, rfl, ⟨rfl, rfl⟩, rfl, rfl, rfl⟩

/-- A writer's last act: all of `v` is in the register, pc is npc, and nothing else has changed (R101). -/
theorem State.writeResult_next (s : State) (i : Fin 8) (v : Cell) (n : Nat) :
    ∃ t, s.writeResult i v n = .next t ∧ t.readReg i = v ∧ t.pc = s.npc n ∧ OnlyRegister i s t :=
  ⟨_, rfl, s.writeReg_readReg_same i v, rfl, s.onlyRegister_writeReg_advance i v n⟩

theorem exec_set_eq (a b : Operand) (s : State) :
    exec (.set a b) s = s.checkDestination a fun i => s.writeResult i (s.value b) 2 := rfl

/-- Settles O10: Set is the destination check followed by the write of `value(b)`, which is not masked. -/
theorem setCopiesValue : Obligations.SetCopiesValue := by
  intro s b
  refine ⟨fun _ => rfl, fun n => ?literal, fun i => ?register⟩
  case literal =>
    rw [exec_set_eq]
    exact s.checkDestination_lit_faulted n _
  case register =>
    rw [exec_set_eq, State.checkDestination_reg]
    exact s.writeResult_next i (s.value b) 2

end Sys2Proof.Machine
end

section
/-! What a comparison answers, then Eq and Gt (spec/42_compare.md R140, R141). -/

namespace Sys2Proof.Machine

theorem eqResult_of_eq {b c : Cell} (h : b = c) : eqResult b c = 1 := by
  simp [eqResult, truthCell, h]

theorem eqResult_of_ne {b c : Cell} (h : b ≠ c) : eqResult b c = 0 := by
  simp [eqResult, truthCell, h]

theorem gtResult_of_gt {b c : Cell} (h : b.toNat > c.toNat) : gtResult b c = 1 := by
  simp [gtResult, truthCell, h]

theorem gtResult_of_le {b c : Cell} (h : b.toNat ≤ c.toNat) : gtResult b c = 0 := by
  simp [gtResult, truthCell, Nat.not_lt.mpr h]

theorem exec_eq_eq (a b c : Operand) (s : State) :
    exec (.eq a b c) s =
      s.checkDestination a fun i => s.writeResult i (eqResult (s.value b) (s.value c)) 3 := rfl

theorem exec_gt_eq (a b c : Operand) (s : State) :
    exec (.gt a b c) s =
      s.checkDestination a fun i => s.writeResult i (gtResult (s.value b) (s.value c)) 3 := rfl

/-- Settles O13: Eq is the destination check followed by the write of `eqResult`, which compares the two values unmasked. -/
theorem eqWritesOneOrZero : Obligations.EqWritesOneOrZero := by
  intro s b c
  refine ⟨fun _ => rfl, fun n => ?literal, fun i => ?register⟩
  case literal =>
    rw [exec_eq_eq]
    exact s.checkDestination_lit_faulted n _
  case register =>
    rw [exec_eq_eq, State.checkDestination_reg]
    obtain ⟨t, ht, hreg, hpc, hframe⟩ := s.writeResult_next i (eqResult (s.value b) (s.value c)) 3
    exact ⟨t, ht, fun h => hreg.trans (eqResult_of_eq h), fun h => hreg.trans (eqResult_of_ne h), hpc, hframe⟩

/-- Settles O14: Gt is the destination check followed by the write of `gtResult`, whose order is that of the natural numbers. -/
theorem gtWritesOneOrZero : Obligations.GtWritesOneOrZero := by
  intro s b c
  refine ⟨fun _ => rfl, fun n => ?literal, fun i => ?register⟩
  case literal =>
    rw [exec_gt_eq]
    exact s.checkDestination_lit_faulted n _
  case register =>
    rw [exec_gt_eq, State.checkDestination_reg]
    obtain ⟨t, ht, hreg, hpc, hframe⟩ := s.writeResult_next i (gtResult (s.value b) (s.value c)) 3
    exact ⟨t, ht, fun h => hreg.trans (gtResult_of_gt h), fun h => hreg.trans (gtResult_of_le h), hpc, hframe⟩

end Sys2Proof.Machine
end

section
/-! Add, Mult and Not: the value each writes is that of its result function, whose arithmetic is said in the laws
(spec/44_alu.md R161, R162, R166). -/

namespace Sys2Proof.Machine

theorem exec_add_eq (a b c : Operand) (s : State) :
    exec (.add a b c) s =
      s.checkDestination a fun i => s.writeResult i (addResult (s.value b) (s.value c)) 3 := rfl

theorem exec_mult_eq (a b c : Operand) (s : State) :
    exec (.mult a b c) s =
      s.checkDestination a fun i => s.writeResult i (multResult (s.value b) (s.value c)) 3 := rfl

theorem exec_not_eq (a b : Operand) (s : State) :
    exec (.not a b) s = s.checkDestination a fun i => s.writeResult i (notResult (s.value b)) 2 := rfl

/-- Settles O18: Add is the destination check followed by the write of `addResult`, which reduces the sum of the whole cells. -/
theorem addWritesSum : Obligations.AddWritesSum := by
  intro s b c
  refine ⟨fun _ => rfl, fun n => ?literal, fun i => ?register⟩
  case literal =>
    rw [exec_add_eq]
    exact s.checkDestination_lit_faulted n _
  case register =>
    rw [exec_add_eq, State.checkDestination_reg]
    obtain ⟨t, ht, hreg, hpc, hframe⟩ := s.writeResult_next i (addResult (s.value b) (s.value c)) 3
    exact ⟨t, ht, hreg ▸ toNat_addResult _ _, hpc, hframe⟩

/-- Settles O19: Mult is the destination check followed by the write of `multResult`, whose product is taken in the natural
numbers and only then reduced. -/
theorem multWritesProduct : Obligations.MultWritesProduct := by
  intro s b c
  refine ⟨fun _ => rfl, fun n => ?literal, fun i => ?register⟩
  case literal =>
    rw [exec_mult_eq]
    exact s.checkDestination_lit_faulted n _
  case register =>
    rw [exec_mult_eq, State.checkDestination_reg]
    obtain ⟨t, ht, hreg, hpc, hframe⟩ := s.writeResult_next i (multResult (s.value b) (s.value c)) 3
    exact ⟨t, ht, hreg ▸ toNat_multResult _ _, hpc, hframe⟩

/-- Settles O23: Not is the destination check followed by the write of `notResult`, read bit by bit, and as a difference where
the operand is a Word. -/
theorem notWritesComplement : Obligations.NotWritesComplement := by
  intro s b
  refine ⟨fun _ => rfl, fun n => ?literal, fun i => ?register⟩
  case literal =>
    rw [exec_not_eq]
    exact s.checkDestination_lit_faulted n _
  case register =>
    rw [exec_not_eq, State.checkDestination_reg]
    obtain ⟨t, ht, hreg, hpc, hframe⟩ := s.writeResult_next i (notResult (s.value b)) 2
    exact ⟨t, ht, fun k => hreg ▸ getLsbD_notResult _ k, fun hword => hreg ▸ toNat_notResult hword, hpc, hframe⟩

end Sys2Proof.Machine
end

section
/-! Wmem: the address check, then one stored cell with its frame (spec/45_memory_access.md R180, R182). -/

namespace Sys2Proof.Machine

theorem exec_wmem_eq (a b : Operand) (s : State) :
    exec (.wmem a b) s =
      s.checkAddress (s.value a) (.next ((s.storeCell (s.value a).toNat (s.value b)).advance 2)) := rfl

/-- A store changes only the two bytes of its cell (R44). -/
theorem State.sameMemoryBut_storeCell (s : State) (a : Nat) (v : Cell) : SameMemoryBut a s (s.storeCell a v) := by
  intro b hlo hhi
  rw [State.storeCell_mem, Memory.readByte_writeCell, if_neg hlo, if_neg hhi]

/-- A fetch that reaches a cell of memory gets what that cell holds now (R52). -/
theorem State.fetchCells_of_readCell {s : State} {a k : Nat} {v : Cell} (hread : s.mem.readCell a = v)
    (ha : a < s.config.memCapacity) (hk : k < 4) (hpc : s.pc.toNat + k = a) : s.fetchCells[k]? = some v := by
  subst hpc
  rw [State.fetchCells_getElem? hk ha, hread]

/-- Settles O25: Wmem is the address check followed by one store; the fetch reads the cell back because the same check puts it
below `MEM_CAPACITY`. -/
theorem wmemWritesCell : Obligations.WmemWritesCell := by
  intro s a b
  refine ⟨rfl, fun hout => ?outOfRange, fun hin => ?stored⟩
  case outOfRange =>
    rw [exec_wmem_eq, State.checkAddress_fault hout]
    exact s.raise_faulted _ _
  case stored =>
    rw [exec_wmem_eq, State.checkAddress_ok hin]
    have hread : (s.mem.writeCell (s.value a).toNat (s.value b)).readCell (s.value a).toNat = s.value b :=
      Memory.readCell_writeCell_same _ _ _
    exact ⟨_, rfl, hread, s.sameMemoryBut_storeCell _ _, rfl, fun _ => State.fetchCells_of_readCell hread hin,
      fun _ => rfl, rfl, ⟨rfl, rfl⟩, rfl, rfl, rfl⟩

end Sys2Proof.Machine
end

section
/-! Out: the range check, then one emitted code with its frame (spec/47_io.md R207). -/

namespace Sys2Proof.Machine

theorem exec_out_of_gt {s : State} {a : Operand} (h : 255 < (s.value a).toNat) :
    exec (.out a) s = s.raise .nonCharacterValue (.cell (s.value a)) := if_pos h

theorem exec_out_of_le {s : State} {a : Operand} (h : (s.value a).toNat ≤ 255) :
    exec (.out a) s = .next ((s.emit ((s.value a).setWidth 8)).advance 1) := if_neg h.not_gt

/-- A value in the byte range is not cut when it is narrowed to a code. -/
theorem toNat_setWidth_byte {v : Cell} (h : v.toNat ≤ 255) : (v.setWidth 8 : Byte).toNat = v.toNat := by
  rw [BitVec.toNat_setWidth, Nat.mod_eq_of_lt (Nat.lt_succ_of_le h)]

/-- Settles O28: Out is the range check followed by one emitted code, which the same check keeps equal to the value. -/
theorem outEmitsCode : Obligations.OutEmitsCode := by
  intro s a
  refine ⟨rfl, fun hout => ?outOfRange, fun hin => ?emitted⟩
  case outOfRange =>
    rw [exec_out_of_gt hout]
    exact s.raise_faulted _ _
  case emitted =>
    exact ⟨_, _, exec_out_of_le hin, toNat_setWidth_byte hin, rfl, rfl, rfl,
      fun _ => rfl, fun _ => rfl, rfl, rfl, rfl, rfl⟩

end Sys2Proof.Machine
end

section
/-! The encoding and the decoder are inverse to each other (spec/30_encoding.md sections 1 to 4). -/

namespace Sys2Proof

/-- Each opcode word selects its own row of R63; the row's format reads the operand words back and looks no further. -/
theorem decode_encode_append (i : Instr) (rest : List Cell) : decode (encode i ++ rest) = .ok i := by
  cases i with
  | halt | ret | noop => rfl
  | set a b => exact decodeF2_encode .set a b rest
  | push a => exact decodeF1_encode .push a rest
  | pop a => exact decodeF1_encode .pop a rest
  | eq a b c => exact decodeF3_encode .eq a b c rest
  | gt a b c => exact decodeF3_encode .gt a b c rest
  | jmp a => exact decodeF1_encode .jmp a rest
  | jt a b => exact decodeF2_encode .jt a b rest
  | jf a b => exact decodeF2_encode .jf a b rest
  | add a b c => exact decodeF3_encode .add a b c rest
  | mult a b c => exact decodeF3_encode .mult a b c rest
  | mod a b c => exact decodeF3_encode .mod a b c rest
  | and a b c => exact decodeF3_encode .and a b c rest
  | or a b c => exact decodeF3_encode .or a b c rest
  | not a b => exact decodeF2_encode .not a b rest
  | rmem a b => exact decodeF2_encode .rmem a b rest
  | wmem a b => exact decodeF2_encode .wmem a b rest
  | call a => exact decodeF1_encode .call a rest
  | out a => exact decodeF1_encode .out a rest
  | in_ a => exact decodeF1_encode .in_ a rest

/-- Settles O5: by the rows of the opcode map, each read back by its format. -/
theorem decodeEncodeAgree : Obligations.DecodeEncodeAgree := decode_encode_append

/-- Settles O6: cells that decode begin with the encoding, which is as long as the instruction. -/
theorem decodedWordsAreTheEncoding : Obligations.DecodedWordsAreTheEncoding := by
  intro ws i hd
  obtain ⟨rest, rfl⟩ := eq_encode_append_of_decode hd
  exact List.take_left' (length_encode i)

/-- The shape of every encoding, from the model's lemma for each constructor. -/
theorem encodeShape (i : Instr) : Laws.EncodeShape.Statement i := by
  cases i with
  | halt => exact Laws.EncodeShape.halt
  | set a b => exact Laws.EncodeShape.set a b
  | push a => exact Laws.EncodeShape.push a
  | pop a => exact Laws.EncodeShape.pop a
  | eq a b c => exact Laws.EncodeShape.eq a b c
  | gt a b c => exact Laws.EncodeShape.gt a b c
  | jmp a => exact Laws.EncodeShape.jmp a
  | jt a b => exact Laws.EncodeShape.jt a b
  | jf a b => exact Laws.EncodeShape.jf a b
  | add a b c => exact Laws.EncodeShape.add a b c
  | mult a b c => exact Laws.EncodeShape.mult a b c
  | mod a b c => exact Laws.EncodeShape.mod a b c
  | and a b c => exact Laws.EncodeShape.and a b c
  | or a b c => exact Laws.EncodeShape.or a b c
  | not a b => exact Laws.EncodeShape.not a b
  | rmem a b => exact Laws.EncodeShape.rmem a b
  | wmem a b => exact Laws.EncodeShape.wmem a b
  | call a => exact Laws.EncodeShape.call a
  | ret => exact Laws.EncodeShape.ret
  | out a => exact Laws.EncodeShape.out a
  | in_ a => exact Laws.EncodeShape.in_ a
  | noop => exact Laws.EncodeShape.noop

theorem arityOfOpcode_opcode (i : Instr) : arityOfOpcode i.opcode = some i.arity := by
  obtain ⟨_, _, _, _, harity⟩ := encodeShape i
  exact harity

/-- No instruction is longer than what one fetch reads (R66). -/
theorem Instr.length_le_four (i : Instr) : i.length ≤ 4 := by
  have := arityOfOpcode_le (arityOfOpcode_opcode i)
  rw [Instr.length]
  omega

/-- Settles O4: the arity stands in the table of opcode words, whose largest is 3. -/
theorem lengthFollowsOpcode : Obligations.LengthFollowsOpcode := fun i =>
  ⟨arityOfOpcode_opcode i, length_encode i, Nat.le_add_right 1 i.arity, i.length_le_four⟩

/-- Settles O7: each list of words is the encoding of its instruction, operand word by operand word. -/
theorem writtenOutWordsDecode : Obligations.WrittenOutWordsDecode :=
  ⟨decode_encode_append .halt [], decode_encode_append (.set (.reg 0) (.lit 5)) [],
    decode_encode_append (.eq (.reg 0) (.lit 7) (.lit 8)) [], decode_encode_append (.jt (.reg 0) (.lit 10)) [],
    decode_encode_append (.add (.reg 0) (.reg 0) (.reg 1)) [], decode_encode_append (.rmem (.reg 1) (.lit 100)) [],
    decode_encode_append (.call (.lit 7)) [], decode_encode_append (.in_ (.reg 7)) []⟩

end Sys2Proof
end

section
/-! What each instruction can change, field by field (spec/10_state.md R22, R26, R27; 47_io.md R200, R206): each rule is read off
the shapes of `Effect`, most of which do not touch the field. -/

namespace Sys2Proof.Machine

theorem Effect.config_eq {s t : State} {i : Instr} (he : Effect s i t) : t.config = s.config := by
  cases he <;> rfl

/-- Only the register named in slot a of a writer can differ (R22). -/
theorem Effect.readReg_eq_or_destination {s t : State} {i : Instr} (he : Effect s i t) (j : Fin 8) :
    t.readReg j = s.readReg j ∨ i.destination = some (.reg j) := by
  have hwrite (u : State) (d : Fin 8) (v : Cell) (hu : u.readReg j = s.readReg j) (hd : i.destination = some (.reg d)) :
      (u.writeReg d v).readReg j = s.readReg j ∨ i.destination = some (.reg j) := by
    by_cases hj : j = d
    · exact .inr (hj ▸ hd)
    · exact .inl ((u.writeReg_readReg_ne d j v hj).trans hu)
  cases he with
  | write _ d v hd _ => exact hwrite s d v rfl hd
  | pop d v rest _ => exact hwrite (s.setStack rest) d v rfl rfl
  | inChar r v rest _ => exact hwrite (s.setInput rest) r (v.setWidth 16) rfl rfl
  | _ => exact .inl rfl

/-- Memory is written by a Wmem alone, one cell below `MEM_CAPACITY` (R26). -/
theorem Effect.mem_eq_or_store {s t : State} {i : Instr} (he : Effect s i t) :
    t.mem = s.mem ∨ ∃ a b, i = .wmem a b ∧ (s.value a).toNat < s.config.memCapacity ∧
      t.mem = s.mem.writeCell (s.value a).toNat (s.value b) := by
  cases he with
  | store a b ha => exact .inr ⟨a, b, rfl, ha, rfl⟩
  | _ => exact .inl rfl

/-- Settles O32: of the shapes an instruction's effect has, three write a register, each the one slot a names. -/
theorem onlyDestinationRegisterChanges : Obligations.OnlyDestinationRegisterChanges := fun _ _ _ j hx hj =>
  ((exec_effect hx).readReg_eq_or_destination j).resolve_left hj

/-- Settles O33: the one cell a Wmem writes keeps every byte outside it. -/
theorem onlyWmemChangesMemory : Obligations.OnlyWmemChangesMemory := by
  intro i s t b hx hb
  rcases (exec_effect hx).mem_eq_or_store with hmem | ⟨x, y, rfl, hlt, hmem⟩
  · exact absurd (by rw [hmem]) hb
  · refine ⟨x, y, rfl, ?_, hlt⟩
    by_contra hout
    rw [not_or] at hout
    exact hb (by rw [hmem, Memory.readByte_writeCell, if_neg hout.2, if_neg hout.1])

/-- Settles O34: the four shapes that set the stack put one entry on it or take one from it. -/
theorem onlyStackInstructionsChangeStack : Obligations.OnlyStackInstructionsChangeStack := by
  intro i s t hx hst
  cases exec_effect hx with
  | push a _ => exact .inl ⟨a, rfl, rfl⟩
  | call a _ _ => exact .inr (.inl ⟨a, rfl, rfl⟩)
  | pop d v rest hs => exact .inr (.inr (.inl ⟨.reg d, v, rfl, hs⟩))
  | ret v rest hs _ => exact .inr (.inr (.inr ⟨v, rfl, hs⟩))
  | _ => exact absurd rfl hst

/-- Settles O35: only the shape of an Out of a byte emits, and the byte has the operand's value. -/
theorem onlyOutEmits : Obligations.OnlyOutEmits := by
  intro i s t hx
  cases exec_effect hx with
  | out a ha => exact .inr ⟨a, _, rfl, toNat_setWidth_byte ha, rfl⟩
  | _ => exact .inl rfl

/-- Settles O36: the three shapes of an In that has a response leave what stood behind it. -/
theorem onlyInTakesResponses : Obligations.OnlyInTakesResponses := by
  intro i s t hx
  cases exec_effect hx with
  | inChar r v rest hin => exact .inr ⟨r, _, rfl, hin⟩
  | inEof r rest hin => exact .inr ⟨r, _, rfl, hin⟩
  | inError r rest hin => exact .inr ⟨r, _, rfl, hin⟩
  | _ => exact .inl rfl

/-- Settles O37: a shape that raises no fault and does not wait either advances past its operand words or has passed the target
check of a transfer. -/
theorem onlyTransfersSetPc : Obligations.OnlyTransfersSetPc := by
  intro i s t hx hnf
  cases exec_effect hx with
  | fault | inError => exact absurd rfl hnf
  | wait r hin => exact .inr (.inr ⟨r, rfl, hin, rfl⟩)
  | jump _ v hi hv =>
    obtain ⟨a, b, hi⟩ := hi
    exact .inr (.inl ⟨hv, .inr ⟨a, b, by tauto⟩⟩)
  | call a ha _ => exact .inr (.inl ⟨ha, .inr ⟨a, a, by simp⟩⟩)
  | ret v rest _ hv => exact .inr (.inl ⟨hv, .inl rfl⟩)
  | _ => exact .inl rfl

end Sys2Proof.Machine
end

section
/-! How a step faults and how a run ends (spec/60_exceptions.md R302 to R304; 40_machine_control.md R103, R105). -/

namespace Sys2Proof.Machine

/-- Every instruction with a `dst` slot begins with the destination check (R103, R303). -/
theorem exec_eq_checkDestination {i : Instr} {a : Operand} (h : i.destination = some a) (s : State) :
    ∃ go, exec i s = s.checkDestination a go := by
  cases i with
  | set | pop | eq | gt | add | mult | mod | and | or | not | rmem | in_ =>
    obtain rfl := Option.some.inj h
    exact ⟨_, rfl⟩
  | halt | push | jmp | jt | jf | wmem | call | ret | out | noop => exact nomatch h

/-- Settles O30: the destination check comes first, and it refuses the literal with nothing else written. -/
theorem literalDestinationFaults : Obligations.LiteralDestinationFaults := by
  intro i s n hdst
  obtain ⟨go, hx⟩ := exec_eq_checkDestination hdst s
  exact ⟨s.badDestination n, hx, ⟨rfl, rfl, rfl⟩, rfl⟩

/-- An instruction that faults has written the status and its record and nothing else, but that an In has taken the response
that failed (R302, notes/assumptions/18.md). -/
theorem Effect.eq_faulted {s t : State} {i : Instr} (he : Effect s i t) (hs : s.status = .running)
    (ht : t.status = .faulted) : ∃ rs k info, k ≠ .loadError ∧
      t = (s.setInput rs).faulted { kind := k, addr := some s.pc, info := info } := by
  cases he with
  | fault _ k info hk => exact ⟨s.input, k, info, hk, rfl⟩
  | inError r rest _ => exact ⟨rest, .ioError, .none, by simp, rfl⟩
  | _ => simp [hs] at ht

/-- The same of a step: a decode error is a fault too (R68, R302). -/
theorem step_eq_faulted {s t : State} (hs : s.status = .running) (hstep : step s = .next t) (ht : t.status = .faulted) :
    ∃ rs k info, k ≠ .loadError ∧
      t = (s.setInput rs).faulted { kind := k, addr := some s.pc, info := info } := by
  rcases step_next hstep with ⟨hns, _⟩ | ⟨_, _, rfl⟩ | ⟨_, _, e, _, rfl⟩ | ⟨_, _, i, _, hx⟩
  · exact absurd hs hns
  · simp at ht
  · exact ⟨s.input, _, _, decodeFault_kind s.pc e, rfl⟩
  · exact (exec_effect hx).eq_faulted hs ht

/-- Settles O31: status, record and the input channel are all that a faulting step writes. -/
theorem faultingStepCommitsNothing : Obligations.FaultingStepCommitsNothing := by
  intro s t hs hstep ht
  obtain ⟨rs, k, info, hk, rfl⟩ := step_eq_faulted hs hstep ht
  exact ⟨fun _ => rfl, fun _ => rfl, rfl, rfl, rfl, rfl, _, rfl, rfl, hk⟩

/-- Settles O45: of the shapes of a step that leave another status than RUNNING, each is one of those R304 and R302 list. -/
theorem runEndsOnlyAsListed : Obligations.RunEndsOnlyAsListed := by
  intro s t hs hstep
  rcases step_next hstep with ⟨hns, _⟩ | ⟨_, hp, rfl⟩ | ⟨_, _, e, _, rfl⟩ | ⟨_, _, i, hd, hx⟩
  · exact absurd hs hns
  · exact hp
  · exact ⟨_, rfl⟩
  · cases exec_effect hx with
    | fault | inError => exact ⟨_, rfl⟩
    | halt => exact hd
    | returned hst => exact ⟨hd, hst⟩
    | inEof r rest hin => exact ⟨r, rest, hd, hin⟩
    | _ => simp [hs]

/-- A decoded instruction has its opcode word in memory, so pc is below `MEM_CAPACITY` (R24). -/
theorem State.pc_lt_of_decoded {s : State} {i : Instr} (hd : decode s.fetchCells = .ok i) :
    s.pc.toNat < s.config.memCapacity := by
  by_contra hp
  rw [State.fetchCells, Memory.cellsFrom_of_le _ _ _ _ (Nat.le_of_not_lt hp)] at hd
  exact nomatch hd

theorem exec_in_wait {s : State} (r : Fin 8) (h : s.input = []) : exec (.in_ (.reg r)) s = .next s := by
  change execIn (.reg r) s = .next s
  rw [execIn, State.checkDestination_reg, h]

/-- The CORE cannot step when its run has ended or an In waits (R105, R205). -/
theorem State.over_or_waiting_of_canStep {s : State} (h : s.canStep = false) :
    s.status ≠ .running ∨
      s.status = .running ∧ ∃ r, decode s.fetchCells = .ok (.in_ (.reg r)) ∧ s.input = [] := by
  by_cases hs : s.status = .running
  · rw [State.canStep, hs] at h
    simp only [decide_true, Bool.true_and] at h
    split at h
    next r hd => exact .inr ⟨hs, r, hd, by simpa using h⟩
    next => exact nomatch h
  · exact .inl hs

/-- Settles O44: an ended run stays as it is, and so does a waiting In, which pc below `MEM_CAPACITY` lets the step decode. -/
theorem noStepLeavesStateUnchanged : Obligations.NoStepLeavesStateUnchanged := by
  intro s _ hcan
  rcases State.over_or_waiting_of_canStep hcan with hover | ⟨hs, r, hd, hin⟩
  · exact step_of_over hover
  · rw [step_of_decoded hs (State.pc_lt_of_decoded hd) hd, exec_in_wait r hin]

end Sys2Proof.Machine
end

section
/-! The value range of registers, stack and memory (spec/10_state.md R33). -/

namespace Sys2Proof.Machine

/-! ### One rule per update -/

theorem State.HoldsWords.of_eq {s t : State} (h : s.HoldsWords) (hr : t.regs = s.regs) (hst : t.stack = s.stack) :
    t.HoldsWords := by
  unfold State.HoldsWords State.readReg
  rw [hr, hst]
  exact h

theorem State.HoldsWords.toNat_value_le {s : State} (h : s.HoldsWords) (o : Operand) : (s.value o).toNat ≤ wordMax := by
  cases o with
  | lit n =>
    rw [State.toNat_value_lit]
    exact Nat.le_of_lt_succ n.isLt
  | reg i => exact h.1 i

theorem State.HoldsWords.writeReg {s : State} {v : Cell} (h : s.HoldsWords) (i : Fin 8) (hv : v.toNat ≤ wordMax) :
    (s.writeReg i v).HoldsWords := by
  refine ⟨fun j => ?_, h.2⟩
  rw [State.readReg_writeReg]
  split
  · exact hv
  · exact h.1 j

theorem State.HoldsWords.setStack_push {s : State} {v : Cell} (h : s.HoldsWords) (hv : v.toNat ≤ wordMax) :
    (s.setStack (v :: s.stack)).HoldsWords :=
  ⟨h.1, List.forall_mem_cons.mpr ⟨hv, h.2⟩⟩

theorem State.HoldsWords.setStack_pop {s : State} {v : Cell} {rest : List Cell} (h : s.HoldsWords)
    (hst : s.stack = v :: rest) : v.toNat ≤ wordMax ∧ (s.setStack rest).HoldsWords := by
  obtain ⟨hv, hrest⟩ := List.forall_mem_cons.mp (hst ▸ h.2)
  exact ⟨hv, h.1, hrest⟩

/-- A store of a Word in a memory of Words (R33). -/
theorem State.MemoryHoldsWords.writeCell {s t : State} {a : Nat} {v : Cell} (h : s.MemoryHoldsWords)
    (hv : v.toNat ≤ wordMax) (hmem : t.mem = s.mem.writeCell a v) (hc : t.config = s.config) : t.MemoryHoldsWords := by
  intro b hb
  rw [hmem, Memory.readCell_writeCell]
  split
  · exact hv
  · exact h b (hc ▸ hb)

/-! ### An instruction and a step -/

/-- The only cell a register writer can copy is the one an Rmem reads. -/
theorem WrittenValue.toNat_le {s : State} {i : Instr} {d : Fin 8} {v : Cell} (hv : WrittenValue s i d v)
    (h : s.HoldsWords)
    (hr : ∀ r b, i = .rmem (.reg r) b → (s.value b).toNat < s.config.memCapacity →
      (s.mem.readCell (s.value b).toNat).toNat ≤ wordMax) : v.toNat ≤ wordMax := by
  rcases hv with hv | ⟨b, hv⟩ | ⟨b, hi, hb, rfl⟩
  · exact hv
  · exact hv.trans (h.toNat_value_le b)
  · exact hr d b hi hb

/-- The values written are results below 32768, copies of Words, input codes, and the npc of a Call, which is at most
`MEM_CAPACITY`. -/
theorem Effect.keeps_holdsWords {s t : State} {i : Instr} (he : Effect s i t) (h : s.HoldsWords)
    (hcap : s.config.memCapacity ≤ 32767) (hfit : s.pc.toNat + 1 + i.arity ≤ s.config.memCapacity)
    (hr : ∀ r b, i = .rmem (.reg r) b → (s.value b).toNat < s.config.memCapacity →
      (s.mem.readCell (s.value b).toNat).toNat ≤ wordMax) : t.HoldsWords := by
  cases he with
  | write _ d v _ hv => exact (h.writeReg d (hv.toNat_le h hr)).of_eq rfl rfl
  | push a _ => exact (h.setStack_push (h.toNat_value_le a)).of_eq rfl rfl
  | pop d v rest hst =>
    obtain ⟨hv, hrest⟩ := h.setStack_pop hst
    exact (hrest.writeReg d hv).of_eq rfl rfl
  | call a ha _ =>
    have hwf : s.config.wf := ⟨by omega, by omega⟩
    have hnpc : (s.npc 1).toNat ≤ wordMax :=
      (State.toNat_npc hwf hfit).trans_le (hfit.trans hcap)
    exact (h.setStack_push hnpc).of_eq rfl rfl
  | ret v rest hst _ => exact (h.setStack_pop hst).2.of_eq rfl rfl
  | inChar r v rest _ =>
    have hv : (v.setWidth 16 : Cell).toNat ≤ wordMax := h.toNat_value_le (.lit v)
    exact (h.writeReg r hv).of_eq rfl rfl
  | _ => exact h.of_eq rfl rfl

/-- Settles O56: a step that executes no instruction writes no register and no entry; the others keep the range, the premise
standing in for the cell an Rmem reads. -/
theorem wordRangeIsKept : Obligations.WordRangeIsKept := by
  intro s t hcap h hr hstep
  rcases step_next hstep with ⟨_, rfl⟩ | ⟨_, _, rfl⟩ | ⟨_, _, e, _, rfl⟩ | ⟨_, hp, i, hd, hx⟩
  · exact h
  · exact h.of_eq rfl rfl
  · exact h.of_eq rfl rfl
  · exact (exec_effect hx).keeps_holdsWords h hcap (State.decoded_fits hp hd) fun r b hi => hr r b (hi ▸ hd)

theorem Effect.keeps_memoryHoldsWords {s t : State} {i : Instr} (he : Effect s i t) (h : s.HoldsWords)
    (hm : s.MemoryHoldsWords) : t.MemoryHoldsWords := by
  have hc := he.config_eq
  rcases he.mem_eq_or_store with hmem | ⟨a, b, _, _, hmem⟩
  · intro c hlt
    rw [hmem]
    exact hm c (hc ▸ hlt)
  · exact hm.writeCell (h.toNat_value_le b) hmem hc

/-- Settles O57: with Words in memory the exception of O56 does not arise, and what a Wmem stores is the value of an operand. -/
theorem wordMemoryIsKept : Obligations.WordMemoryIsKept := by
  intro s t hcap h hm hstep
  refine ⟨wordRangeIsKept s t hcap h (fun r b _ hb => hm _ hb) hstep, ?_⟩
  rcases step_next hstep with ⟨_, rfl⟩ | ⟨_, _, rfl⟩ | ⟨_, _, e, _, rfl⟩ | ⟨_, _, i, _, hx⟩
  · exact hm
  · exact hm
  · exact hm
  · exact (exec_effect hx).keeps_memoryHoldsWords h hm

end Sys2Proof.Machine
end

section
/-! What no step reads: the codes already emitted, and the entries below the top of a stack without a bound (spec/10_state.md
R27; 47_io.md R206). Both are one fact: every operation of the model commutes with putting such data into the state. -/

namespace Sys2Proof.Machine

/-- `s` with more entries at the bottom of its stack and more codes emitted before its own. -/
def State.extend (s : State) (below : List Cell) (before : List Byte) : State :=
  { s with stack := s.stack ++ below, output := before ++ s.output }

/-- An outcome whose next state is extended. -/
def extendNext (below : List Cell) (before : List Byte) : Result → Result
  | .next t => .next (t.extend below before)
  | .fault r => .fault r
  | .refused r => .refused r

/-- No step from `s` can tell that `below` lies under its stack: there is nothing there, or the stack has no bound to compare
its depth with and an entry on top. -/
def State.Hides (s : State) (below : List Cell) : Prop :=
  below = [] ∨ s.config.stackCapacity = none ∧ s.stack ≠ []

section
variable {s t : State} {below : List Cell} {before : List Byte}

theorem State.extend_nil_left : s.extend [] before = { s with output := before ++ s.output } := by
  simp [State.extend]

/-! ### The operations that see neither stack nor output -/

@[simp] theorem State.extend_value (o : Operand) : (s.extend below before).value o = s.value o := by
  cases o <;> rfl

theorem State.extend_emit (v : Byte) : (s.extend below before).emit v = (s.emit v).extend below before := by
  simp [State.extend, State.emit]

theorem State.extend_checkDestination {a : Operand} {go go' : Fin 8 → Result}
    (h : ∀ i, go' i = extendNext below before (go i)) :
    (s.extend below before).checkDestination a go' = extendNext below before (s.checkDestination a go) := by
  cases a with
  | lit n => rfl
  | reg i => exact h i

theorem State.extend_writer {a : Operand} {v v' : Cell} {n : Nat} (hv : v' = v) :
    ((s.extend below before).checkDestination a fun i => (s.extend below before).writeResult i v' n) =
      extendNext below before (s.checkDestination a fun i => s.writeResult i v n) :=
  State.extend_checkDestination fun _ => by rw [hv]; rfl

theorem State.extend_checkTarget {v v' : Cell} {go go' : Result} (hv : v' = v) (h : go' = extendNext below before go) :
    (s.extend below before).checkTarget v' go' = extendNext below before (s.checkTarget v go) := by
  rw [State.checkTarget, State.checkTarget, apply_ite (extendNext below before), hv, h]
  rfl

theorem State.extend_checkAddress {v v' : Cell} {go go' : Result} (hv : v' = v) (h : go' = extendNext below before go) :
    (s.extend below before).checkAddress v' go' = extendNext below before (s.checkAddress v go) := by
  rw [State.checkAddress, State.checkAddress, apply_ite (extendNext below before), hv, h]
  rfl

theorem State.extend_transfer {v v' : Cell} (hv : v' = v) :
    (s.extend below before).transfer v' = extendNext below before (s.transfer v) :=
  State.extend_checkTarget hv (by rw [hv]; rfl)

theorem execMod_extend (a b c : Operand) :
    execMod a b c (s.extend below before) = extendNext below before (execMod a b c s) :=
  State.extend_checkDestination fun _ => by
    rw [apply_ite (extendNext below before), State.extend_value, State.extend_value]
    rfl

theorem execJt_extend (a b : Operand) :
    execJt a b (s.extend below before) = extendNext below before (execJt a b s) := by
  rw [execJt, execJt, apply_ite (extendNext below before), State.extend_value,
    State.extend_transfer (State.extend_value b)]
  rfl

theorem execJf_extend (a b : Operand) :
    execJf a b (s.extend below before) = extendNext below before (execJf a b s) := by
  rw [execJf, execJf, apply_ite (extendNext below before), State.extend_value,
    State.extend_transfer (State.extend_value b)]
  rfl

theorem execOut_extend (a : Operand) :
    execOut a (s.extend below before) = extendNext below before (execOut a s) := by
  rw [execOut, execOut, apply_ite (extendNext below before), State.extend_value, State.extend_emit]
  rfl

theorem execIn_extend (a : Operand) :
    execIn a (s.extend below before) = extendNext below before (execIn a s) := by
  refine State.extend_checkDestination fun i => ?_
  have hin : (s.extend below before).input = s.input := rfl
  rw [hin]
  split <;> rfl

/-! ### The operations on the stack -/

/-- The bound is compared with a depth that `below` does not change, or there is none (R121). -/
theorem State.extend_stackFull (h : s.Hides below) : (s.extend below before).stackFull = s.stackFull := by
  rcases h with rfl | ⟨hcap, _⟩
  · simp [State.stackFull, State.extend]
  · simp [State.stackFull, State.extend, hcap]

theorem State.extend_checkStackRoom {go go' : Result} (hh : s.Hides below) (h : go' = extendNext below before go) :
    (s.extend below before).checkStackRoom go' = extendNext below before (s.checkStackRoom go) := by
  rw [State.checkStackRoom, State.checkStackRoom, apply_ite (extendNext below before), State.extend_stackFull hh, h]
  rfl

/-- The top of the stack is the same in both states, or neither has one. -/
theorem State.Hides.stack_cases (h : s.Hides below) (before : List Byte) :
    (s.stack = [] ∧ (s.extend below before).stack = []) ∨
    ∃ v rest, s.stack = v :: rest ∧ (s.extend below before).stack = v :: (rest ++ below) := by
  cases hs : s.stack with
  | nil =>
    rcases h with rfl | ⟨_, hne⟩
    · exact .inl ⟨rfl, by simp [State.extend, hs]⟩
    · exact absurd hs hne
  | cons v rest => exact .inr ⟨v, rest, rfl, by simp [State.extend, hs]⟩

theorem execPop_extend (a : Operand) (h : s.Hides below) :
    execPop a (s.extend below before) = extendNext below before (execPop a s) := by
  refine State.extend_checkDestination fun i => ?_
  rcases h.stack_cases before with ⟨hs, he⟩ | ⟨v, rest, hs, he⟩
  · rw [hs, he]
    rfl
  · rw [hs, he]
    rfl

theorem execRet_extend (h : s.Hides below) :
    execRet (s.extend below before) = extendNext below before (execRet s) := by
  rcases h.stack_cases before with ⟨hs, he⟩ | ⟨v, rest, hs, he⟩
  · rw [execRet, execRet, hs, he]
    rfl
  · rw [execRet, execRet, hs, he]
    exact State.extend_checkTarget rfl rfl

/-! ### An instruction and a step -/

theorem exec_extend (i : Instr) (h : s.Hides below) :
    exec i (s.extend below before) = extendNext below before (exec i s) := by
  cases i with
  | halt | noop => rfl
  | set a b => exact State.extend_writer (State.extend_value b)
  | eq | gt | add | mult | and | or | not => exact State.extend_writer (by simp only [State.extend_value])
  | mod a b c => exact execMod_extend a b c
  | push a => exact State.extend_checkStackRoom h (by rw [State.extend_value]; rfl)
  | pop a => exact execPop_extend a h
  | jmp a => exact State.extend_transfer (State.extend_value a)
  | jt a b => exact execJt_extend a b
  | jf a b => exact execJf_extend a b
  | rmem a b =>
    exact State.extend_checkDestination fun _ =>
      State.extend_checkAddress (State.extend_value b) (by rw [State.extend_value]; rfl)
  | wmem a b => exact State.extend_checkAddress (State.extend_value a) (by simp only [State.extend_value]; rfl)
  | call a =>
    exact State.extend_checkTarget (State.extend_value a)
      (State.extend_checkStackRoom h (by rw [State.extend_value]; rfl))
  | ret => exact execRet_extend h
  | out a => exact execOut_extend a
  | in_ a => exact execIn_extend a

theorem step_extend (h : s.Hides below) (hstep : step s = .next t) :
    step (s.extend below before) = .next (t.extend below before) := by
  rcases step_next hstep with ⟨hs, rfl⟩ | ⟨hs, hp, rfl⟩ | ⟨hs, hp, e, hd, rfl⟩ | ⟨hs, hp, i, hd, hx⟩
  · exact step_of_over hs
  · exact step_at_end hs hp
  · exact step_of_decodeError hs hp hd
  · have hdecoded : step (s.extend below before) = exec i (s.extend below before) := step_of_decoded hs hp hd
    rw [hdecoded, exec_extend i h, hx]
    rfl

end

/-- Settles O58: the codes emitted before are one kind of data the step carries along. -/
theorem outputIsNeverReadBack : Obligations.OutputIsNeverReadBack := by
  intro s t before hstep
  rw [← State.extend_nil_left, ← State.extend_nil_left]
  exact step_extend (.inl rfl) hstep

/-- Settles O59: the entries further down are the other; that the stack has no bound and is not empty hides them. -/
theorem entriesBelowTopAreUntouched : Obligations.EntriesBelowTopAreUntouched := fun _ _ _ hcap hne hstep =>
  step_extend (before := []) (.inr ⟨hcap, hne⟩) hstep

end Sys2Proof.Machine
end

section
/-! What the cells at pc make of a step (spec/30_encoding.md R60 to R68; 40_machine_control.md R100). -/

namespace Sys2Proof

/-! ### An operand word that cannot be read -/

theorem Slot.exists_number_eq {j : Nat} (h : j < 3) : ∃ k : Slot, k.number = j + 1 :=
  match j, h with
  | 0, _ => ⟨.a, rfl⟩
  | 1, _ => ⟨.b, rfl⟩
  | 2, _ => ⟨.c, rfl⟩

theorem Slot.number_pos_le (slot : Slot) : 1 ≤ slot.number ∧ slot.number ≤ 3 := by
  cases slot <;> decide

/-- The decoder stops at the first operand word it cannot read (R68): `ops` are the operands before it. -/
theorem decode_of_operand_error {w : Cell} {n : Nat} {slot : Slot} {ops : List Operand} {ws : List Cell} {e : DecodeError}
    (ha : arityOfOpcode w = some n) (hn : slot.number ≤ n) (hops : ops.length + 1 = slot.number)
    (he : readOperand slot ws = .error e) : decode (w :: (ops.map Operand.encode ++ ws)) = .error e := by
  rcases decode_of_arity ha with ⟨rfl, _⟩ | ⟨rfl, mk, hd⟩ | ⟨rfl, mk, hd⟩ | ⟨rfl, mk, hd⟩
  · omega
  all_goals rw [hd]
  · match slot, ops with
    | .a, [] => simp [decodeF1, he]
  · match slot, ops with
    | .a, [] => simp [decodeF2, he]
    | .b, [a] => simp [decodeF2, readOperand_encode, he]
  · match slot, ops with
    | .a, [] => simp [decodeF3, he]
    | .b, [a] => simp [decodeF3, readOperand_encode, he]
    | .c, [a, b] => simp [decodeF3, readOperand_encode, he]

end Sys2Proof

namespace Sys2Proof.Machine

/-- Cells that are all literals or registers are fetched as the words of operands. -/
theorem Memory.exists_operands_cellsFrom (m : Memory) (limit : Nat) :
    ∀ (k a n : Nat), a + k ≤ limit → (∀ j < k, (m.readCell (a + j)).toNat ≤ 32775) →
      ∃ ops : List Operand, ops.length = k ∧
        m.cellsFrom limit a (k + n) = ops.map Operand.encode ++ m.cellsFrom limit (a + k) n := by
  intro k
  induction k with
  | zero => exact fun a n _ _ => ⟨[], rfl, by simp⟩
  | succ k ih =>
    intro a n hlim hle
    obtain ⟨o, ho⟩ := classify_ok_of_le .a (m.readCell a) (hle 0 (by omega))
    obtain ⟨ops, hlen, hops⟩ := ih (a + 1) n (by omega) fun j hj => by
      rw [Nat.add_right_comm]
      exact hle (j + 1) (by omega)
    refine ⟨o :: ops, by rw [List.length_cons, hlen], ?_⟩
    rw [Nat.add_right_comm k 1 n, Memory.cellsFrom_succ _ _ _ _ (by omega), hops, ← encode_of_classify ho,
      Nat.add_right_comm a 1 k]
    rfl

/-- A slot whose word cannot be read, behind operand words that can, is the fault of the step (R68, R302). -/
theorem step_of_operand_error {s : State} {n : Nat} {slot : Slot} {e : DecodeError} (hs : s.status = .running)
    (hp : s.pc.toNat < s.config.memCapacity) (ha : arityOfOpcode (s.mem.readCell s.pc.toNat) = some n)
    (hn : slot.number ≤ n) (hlim : s.pc.toNat + slot.number ≤ s.config.memCapacity)
    (hle : ∀ k : Slot, k.number < slot.number → (s.mem.readCell (s.pc.toNat + k.number)).toNat ≤ 32775)
    (he : readOperand slot
      (s.mem.cellsFrom s.config.memCapacity (s.pc.toNat + slot.number) (4 - slot.number)) = .error e) :
    ∃ t, step s = .next t ∧ Faulted (decodeFault s.pc e).1 (decodeFault s.pc e).2 s t := by
  obtain ⟨hpos, hslot⟩ := slot.number_pos_le
  obtain ⟨ops, hlen, hops⟩ := s.mem.exists_operands_cellsFrom s.config.memCapacity (slot.number - 1) (s.pc.toNat + 1)
    (4 - slot.number) (by omega) fun j hj => by
      obtain ⟨k, hk⟩ := Slot.exists_number_eq (j := j) (by omega)
      rw [Nat.add_assoc, Nat.add_comm 1 j, ← hk]
      exact hle k (by omega)
  have hcells : s.fetchCells = s.mem.readCell s.pc.toNat :: (ops.map Operand.encode ++
      s.mem.cellsFrom s.config.memCapacity (s.pc.toNat + slot.number) (4 - slot.number)) := by
    rw [State.fetchCells_eq hp, show 3 = slot.number - 1 + (4 - slot.number) by omega, hops, Nat.add_assoc,
      Nat.add_sub_cancel' hpos]
  have hd : decode s.fetchCells = .error e := by
    rw [hcells]
    exact decode_of_operand_error ha hn (by omega) he
  exact ⟨_, step_of_decodeError hs hp hd, rfl, rfl, rfl⟩

/-- Settles O41: the word is fetched, being below `MEM_CAPACITY`, and does not classify. -/
theorem invalidOperandWordFaults : Obligations.InvalidOperandWordFaults := by
  intro s n slot hs ha hn hlt hinv hle
  obtain ⟨_, hslot⟩ := slot.number_pos_le
  refine step_of_operand_error (e := .invalidOperandEncoding slot _) hs (by omega) ha hn hlt.le hle ?_
  rw [show 4 - slot.number = 3 - slot.number + 1 by omega, Memory.cellsFrom_succ _ _ _ _ hlt, readOperand,
    classify_invalid slot _ hinv]

/-- Settles O42: the fetch ends where memory does, so there is no word for the slot. -/
theorem operandPastEndFaults : Obligations.OperandPastEndFaults := by
  intro s n slot hs hp ha hn hend hle
  refine step_of_operand_error (e := .operandMissing slot) hs hp ha hn hend.ge hle ?_
  rw [Memory.cellsFrom_of_le _ _ _ _ hend.le, readOperand]

/-! ### An opcode word, or none -/

/-- Settles O40: no row of R63 has the word, and the fetch begins with it. -/
theorem unknownOpcodeFaults : Obligations.UnknownOpcodeFaults := by
  intro s hs hp hw
  have hd : decode s.fetchCells = .error (.unknownOpcode (s.mem.readCell s.pc.toNat)) := by
    rw [State.fetchCells_eq hp]
    exact decode_unknownOpcode hw _
  exact ⟨_, step_of_decodeError hs hp hd, rfl, rfl, rfl⟩

/-- Settles O43: at `MEM_CAPACITY` nothing is fetched, and only the status is written. -/
theorem fetchAtEndOfMemoryEnds : Obligations.FetchAtEndOfMemoryEnds := fun _ hs hp =>
  ⟨_, step_at_end hs hp, rfl, rfl, fun _ => rfl, fun _ => rfl, rfl, ⟨rfl, rfl⟩, rfl, rfl⟩

/-! ### The words of an instruction -/

/-- Settles O38: below `MEM_CAPACITY` a running CORE takes the last branch of the step. -/
theorem stepRunsDecodedInstruction : Obligations.StepRunsDecodedInstruction := fun _ _ hs hp hd =>
  step_of_decoded hs hp hd

/-- The words of an instruction that stand in memory from pc on are the first ones fetched. -/
theorem State.encode_prefix_fetchCells {s : State} {i : Instr} (hfit : s.pc.toNat + i.length ≤ s.config.memCapacity)
    (hmem : ∀ k w, (encode i)[k]? = some w → s.mem.readCell (s.pc.toNat + k) = w) : encode i <+: s.fetchCells := by
  rw [List.prefix_iff_getElem?]
  intro k hk
  have hlen : k < i.length := hk.trans_eq (length_encode i)
  have hfour := i.length_le_four
  rw [State.fetchCells_getElem? (by omega) (by omega), hmem k _ (List.getElem?_eq_getElem hk)]

/-- Settles O39: the words are fetched, and the decoder gives the instruction back whatever is fetched behind them. -/
theorem stepRunsInstructionInMemory : Obligations.StepRunsInstructionInMemory := by
  intro s i hs hfit hmem
  obtain ⟨rest, hcells⟩ := State.encode_prefix_fetchCells hfit hmem
  have hd : decode s.fetchCells = .ok i := hcells ▸ decode_encode_append i rest
  exact step_of_decoded hs (State.pc_lt_of_decoded hd) hd

theorem exec_wmem_of_lt {s : State} {a b : Operand} (h : (s.value a).toNat < s.config.memCapacity) :
    exec (.wmem a b) s = .next ((s.storeCell (s.value a).toNat (s.value b)).advance 2) :=
  (exec_wmem_eq a b s).trans (State.checkAddress_ok h)

theorem encode_of_arity_zero {i : Instr} (h : i.arity = 0) : encode i = [i.opcode] := by
  rw [encode, List.eq_nil_of_length_eq_zero h, List.map_nil]

/-- Settles O47: after the Wmem pc is at the cell written, whose one word is the whole instruction. -/
theorem storedOpcodeRunsNext : Obligations.StoredOpcodeRunsNext := by
  intro s a b i hs hd haddr hlt harity hval
  have hstep : step s = .next ((s.storeCell (s.value a).toNat (s.value b)).advance 2) :=
    (step_of_decoded hs (State.pc_lt_of_decoded hd) hd).trans (exec_wmem_of_lt (haddr ▸ hlt))
  have hpc : (s.npc 2).toNat = s.pc.toNat + 3 := by
    have := (s.value a).isLt
    simp [State.npc]
    omega
  refine ⟨_, hstep, stepRunsInstructionInMemory _ i hs ?fits ?word⟩
  case fits =>
    change (s.npc 2).toNat + i.length ≤ s.config.memCapacity
    rw [Instr.length, harity]
    omega
  case word =>
    intro k w hk
    rw [encode_of_arity_zero harity, List.getElem?_singleton] at hk
    obtain ⟨rfl, rfl⟩ : k = 0 ∧ i.opcode = w := by simpa using hk
    change (s.mem.writeCell (s.value a).toNat (s.value b)).readCell (s.npc 2).toNat = i.opcode
    rw [hpc, ← haddr, Memory.readCell_writeCell_same, hval]

end Sys2Proof.Machine
end

section
/-! Runs, reset and memory as data (spec/10_state.md section 6; 20_memory.md sections 2 and 4; 70_reset_and_hazards.md). -/

namespace Sys2Proof.Machine

/-- Settles O46: reading back and the frame of a write are laws of the memory; the canonical form makes it extensional. -/
theorem memoryReadsWhatWasWritten : Obligations.MemoryReadsWhatWasWritten := by
  refine ⟨fun m a v => ⟨Memory.readCell_writeCell_same m a v, fun b hlo hhi => ?_⟩, fun m m' => Memory.wfFrom_ext⟩
  rw [Memory.readByte_writeCell, if_neg hhi, if_neg hlo]

/-! ### Runs -/

theorem run_succ_of_next {s t : State} (k : Nat) (h : step s = .next t) : run (k + 1) s = run k t := by
  rw [run, h]

/-- A run that goes on begins with a step (R100). -/
theorem exists_step_of_run_succ {k : Nat} {s t : State} (h : run (k + 1) s = .next t) :
    ∃ u, step s = .next u ∧ run k u = .next t := by
  cases hstep : step s with
  | next u => exact ⟨u, rfl, run_succ_of_next k hstep ▸ h⟩
  | fault r =>
    rw [run, hstep] at h
    exact nomatch h
  | refused r =>
    rw [run, hstep] at h
    exact nomatch h

theorem run_of_over {s : State} (h : s.status ≠ .running) (k : Nat) : run k s = .next s := by
  induction k with
  | zero => rfl
  | succ k ih => rw [run_succ_of_next k (step_of_over h), ih]

theorem Effect.output_prefix {s t : State} {i : Instr} (he : Effect s i t) : s.output <+: t.output := by
  cases he with
  | out a _ => exact List.prefix_append _ _
  | _ => exact List.prefix_rfl

theorem step_config_eq_output_prefix {s t : State} (h : step s = .next t) :
    t.config = s.config ∧ s.output <+: t.output := by
  rcases step_next h with ⟨_, rfl⟩ | ⟨_, _, rfl⟩ | ⟨_, _, e, _, rfl⟩ | ⟨_, _, i, _, hx⟩
  · exact ⟨rfl, List.prefix_rfl⟩
  · exact ⟨rfl, List.prefix_rfl⟩
  · exact ⟨rfl, List.prefix_rfl⟩
  · exact ⟨(exec_effect hx).config_eq, (exec_effect hx).output_prefix⟩

theorem run_config_eq_output_prefix {k : Nat} {s t : State} (h : run k s = .next t) :
    t.config = s.config ∧ s.output <+: t.output := by
  induction k generalizing s with
  | zero =>
    obtain rfl := Host.Outcome.next.inj h
    exact ⟨rfl, List.prefix_rfl⟩
  | succ k ih =>
    obtain ⟨u, hstep, hrun⟩ := exists_step_of_run_succ h
    obtain ⟨hc, ho⟩ := step_config_eq_output_prefix hstep
    obtain ⟨hc', ho'⟩ := ih hrun
    exact ⟨hc'.trans hc, ho.trans ho'⟩

/-- Settles O55: what each step keeps or extends, so does a run of any length; an ended run answers itself. -/
theorem runsOnlyGrowOutput : Obligations.RunsOnlyGrowOutput := by
  intro k s t h
  obtain ⟨hc, o, ho⟩ := run_config_eq_output_prefix h
  refine ⟨hc, ⟨o, ho.symm⟩, fun hover => ?_⟩
  have hself := run_of_over (of_decide_eq_true hover) k
  exact Host.Outcome.next.inj (h.symm.trans hself)

/-! ### Reset -/

/-- Settles O52: an odd image leaves FAULTED, which is an ended run. -/
theorem failedLoadNeverRuns : Obligations.FailedLoadNeverRuns := by
  intro c image rs k hodd
  refine run_of_over ?_ k
  rw [State.boot_odd hodd, State.faulted_status]
  simp

/-- Before the load memory and stack are empty, and there is no record. -/
theorem State.inv_reset_with {c : Config} (hc : c.wf) (rs : List Response) :
    State.Inv { State.reset with config := c, input := rs } where
  config := hc
  memWf := rfl
  memWithin := rfl
  pc := Nat.zero_le _
  stack := fun _ _ => Nat.zero_le _
  record := rfl
  recordAddr := fun _ hsome => nomatch hsome

/-- Settles O53: loading cells keeps memory canonical and within its capacity; a failed load leaves a LoadError record. -/
theorem resetMeetsInvariant : Obligations.ResetMeetsInvariant := by
  refine ⟨State.inv_reset_with (by decide) [], fun c image rs hc => ?_⟩
  have h := State.inv_reset_with hc rs
  rcases Nat.mod_two_eq_zero_or_one image.length with heven | hodd
  · rw [State.boot_even heven]
    exact { h with
      memWf := Memory.wf_storeFrom _ h.memWf
      memWithin := Memory.within_storeFrom _ h.memWithin }
  · rw [State.boot_odd hodd]
    exact h.faulted (by simp)

end Sys2Proof.Machine
end

section
/-! Stack, transfers and the ends of a run: Halt, Push, Pop, Jmp, Jt, Jf, Call and Ret, one equation per branch of the meaning
(spec/41_register_stack.md, 43_jumps.md, 46_call_return.md). -/

namespace Sys2Proof.Machine

/-! ### Frames of the updates -/

theorem State.onlyPc_setPc (s : State) (v : Cell) : OnlyPc s (s.setPc v) :=
  ⟨fun _ => rfl, fun _ => rfl, rfl, ⟨rfl, rfl⟩, rfl, rfl, rfl⟩

theorem State.transfer_of_lt {s : State} {v : Cell} (h : v.toNat < s.config.memCapacity) :
    s.transfer v = .next (s.setPc v) := State.checkTarget_ok h

/-- A transfer within memory moves pc and nothing else (R150). -/
theorem State.transfer_next_onlyPc {s : State} {v : Cell} (h : v.toNat < s.config.memCapacity) :
    ∃ t, s.transfer v = .next t ∧ t.pc = v ∧ OnlyPc s t :=
  ⟨_, State.transfer_of_lt h, rfl, s.onlyPc_setPc v⟩

/-- A target out of range faults, whatever the transfer would do (R150). -/
theorem State.checkTarget_faulted {s : State} {v : Cell} (h : s.config.memCapacity ≤ v.toNat) (go : Result) :
    ∃ t, s.checkTarget v go = .next t ∧ Faulted .jumpOutOfRange (.cell v) s t := by
  rw [State.checkTarget_fault h]
  exact s.raise_faulted _ _

theorem State.checkStackRoom_faulted {s : State} (h : s.config.stackCapacity = some s.stack.length) (go : Result) :
    ∃ t, s.checkStackRoom go = .next t ∧ Faulted .stackOverflow .none s t := by
  rw [State.checkStackRoom_fault h]
  exact s.raise_faulted _ _

/-! ### Halt and the stack -/

/-- Settles O8: Halt is `finish`, which writes the status and pc. -/
theorem haltEndsTheRun : Obligations.HaltEndsTheRun :=
  ⟨rfl, fun _ => ⟨_, rfl, rfl, rfl, fun _ => rfl, fun _ => rfl, rfl, ⟨rfl, rfl⟩, rfl, rfl⟩⟩

theorem exec_push_eq (a : Operand) (s : State) :
    exec (.push a) s = s.checkStackRoom (.next ((s.setStack (s.value a :: s.stack)).advance 1)) := rfl

theorem exec_push_of_room {s : State} (a : Operand) (h : s.config.stackCapacity ≠ some s.stack.length) :
    exec (.push a) s = .next ((s.setStack (s.value a :: s.stack)).advance 1) := State.checkStackRoom_ok h

/-- Settles O11: Push is the check for room followed by one entry on top. -/
theorem pushStoresOnTop : Obligations.PushStoresOnTop := by
  intro s a
  refine ⟨rfl, fun hfull => ?full, fun hroom => ?room⟩
  case full =>
    rw [exec_push_eq]
    exact State.checkStackRoom_faulted hfull _
  case room =>
    exact ⟨_, exec_push_of_room a hroom, rfl, rfl, fun _ => rfl, fun _ => rfl, ⟨rfl, rfl⟩, rfl, rfl, rfl⟩

theorem exec_pop_lit (n : Word) (s : State) : exec (.pop (.lit n)) s = .next (s.badDestination n) := rfl

theorem exec_pop_of_nil {s : State} (i : Fin 8) (h : s.stack = []) :
    exec (.pop (.reg i)) s = s.raise .stackUnderflow .none := by
  change execPop (.reg i) s = _
  rw [execPop, State.checkDestination_reg, h]

theorem exec_pop_of_cons {s : State} {v : Cell} {rest : List Cell} (i : Fin 8) (h : s.stack = v :: rest) :
    exec (.pop (.reg i)) s = .next (((s.setStack rest).writeReg i v).advance 1) := by
  change execPop (.reg i) s = _
  rw [execPop, State.checkDestination_reg, h]
  rfl

theorem State.badDestination_faulted (s : State) (n : Word) :
    Faulted .invalidDestination (.cell (n.setWidth 16)) s (s.badDestination n) := ⟨rfl, rfl, rfl⟩

/-- Settles O12: the destination check stands before the look at the stack, which then decides. -/
theorem popTakesTop : Obligations.PopTakesTop := by
  intro s
  refine ⟨fun _ => rfl, fun n => ⟨_, exec_pop_lit n s, s.badDestination_faulted n⟩, fun i hst => ?empty,
    fun i v rest hst => ?entry⟩
  case empty =>
    rw [exec_pop_of_nil i hst]
    exact s.raise_faulted _ _
  case entry =>
    exact ⟨_, exec_pop_of_cons i hst, (s.setStack rest).writeReg_readReg_same i v, rfl, rfl,
      fun j => (s.setStack rest).writeReg_readReg_ne i j v, fun _ => rfl, ⟨rfl, rfl⟩, rfl, rfl, rfl⟩

/-- Settles O48: the Pop finds what the Push put on top. -/
theorem pushThenPopRoundTrip : Obligations.PushThenPopRoundTrip := fun s a i hroom =>
  ⟨_, _, exec_push_of_room a hroom, exec_pop_of_cons i rfl, State.writeReg_readReg_same _ i (s.value a), rfl⟩

/-! ### Jumps -/

theorem exec_jmp_eq (a : Operand) (s : State) : exec (.jmp a) s = s.transfer (s.value a) := rfl

theorem exec_jt_of_zero {s : State} {a : Operand} (b : Operand) (h : s.value a = 0#16) :
    exec (.jt a b) s = .next (s.advance 2) := by
  change execJt a b s = _
  rw [execJt, h]
  rfl

theorem exec_jt_of_ne {s : State} {a : Operand} (b : Operand) (h : s.value a ≠ 0#16) :
    exec (.jt a b) s = s.transfer (s.value b) := if_pos ((isNonzero_iff _).mpr h)

theorem exec_jf_of_zero {s : State} {a : Operand} (b : Operand) (h : s.value a = 0#16) :
    exec (.jf a b) s = s.transfer (s.value b) := by
  change execJf a b s = _
  rw [execJf, h]
  rfl

theorem exec_jf_of_ne {s : State} {a : Operand} (b : Operand) (h : s.value a ≠ 0#16) :
    exec (.jf a b) s = .next (s.advance 2) := if_pos ((isNonzero_iff _).mpr h)

/-- Settles O15: Jmp is the transfer. -/
theorem jmpTransfers : Obligations.JmpTransfers := fun s a =>
  ⟨rfl, State.transfer_next_onlyPc, fun hout => exec_jmp_eq a s ▸ State.checkTarget_faulted hout _⟩

/-- Settles O16: a value other than 0 makes Jt the transfer, 0 makes it a Noop of its length. -/
theorem jtTransfersWhenNonzero : Obligations.JtTransfersWhenNonzero := by
  intro s a b
  refine ⟨rfl, fun hz => ⟨_, exec_jt_of_zero b hz, rfl, s.onlyPc_advance 2⟩, fun hnz hlt => ?taken, fun hnz hout => ?fault⟩
  all_goals rw [exec_jt_of_ne b hnz]
  case taken => exact State.transfer_next_onlyPc hlt
  case fault => exact State.checkTarget_faulted hout _

/-- Settles O17: Jf is Jt with the two values changed round. -/
theorem jfTransfersWhenZero : Obligations.JfTransfersWhenZero := by
  intro s a b
  refine ⟨rfl, fun hnz => ⟨_, exec_jf_of_ne b hnz, rfl, s.onlyPc_advance 2⟩, fun hz hlt => ?taken, fun hz hout => ?fault⟩
  all_goals rw [exec_jf_of_zero b hz]
  case taken => exact State.transfer_next_onlyPc hlt
  case fault => exact State.checkTarget_faulted hout _

/-! ### Call and Ret -/

theorem exec_call_eq (a : Operand) (s : State) :
    exec (.call a) s = s.checkTarget (s.value a)
      (s.checkStackRoom (.next ((s.setStack (s.npc 1 :: s.stack)).setPc (s.value a)))) := rfl

theorem exec_ret_of_nil {s : State} (h : s.stack = []) : exec .ret s = .next ((s.ended .returned).advance 0) := by
  change execRet s = _
  rw [execRet, h]
  rfl

theorem exec_ret_of_cons {s : State} {v : Cell} {rest : List Cell} (h : s.stack = v :: rest) :
    exec .ret s = s.checkTarget v (.next ((s.setStack rest).setPc v)) := by
  change execRet s = _
  rw [execRet, h]

/-- Settles O26: Call is the target check, then the check for room, then the push of npc and the jump. -/
theorem callPushesAndTransfers : Obligations.CallPushesAndTransfers := by
  intro s a
  refine ⟨rfl, fun hout => exec_call_eq a s ▸ State.checkTarget_faulted hout _, fun hlt hfull => ?full,
    fun hlt hroom => ?called⟩
  all_goals rw [exec_call_eq, State.checkTarget_ok hlt]
  case full => exact State.checkStackRoom_faulted hfull _
  case called =>
    rw [State.checkStackRoom_ok hroom]
    exact ⟨_, rfl, rfl, rfl, fun _ => rfl, fun _ => rfl, ⟨rfl, rfl⟩, rfl, rfl, rfl⟩

/-- Settles O27: the stack decides between the end of the run and the target check. -/
theorem retTransfersToTop : Obligations.RetTransfersToTop := by
  refine ⟨rfl, fun s => ⟨fun hst => ?empty, fun v rest hst hlt => ?taken, fun v rest hst hout => ?fault⟩⟩
  case empty =>
    exact ⟨_, exec_ret_of_nil hst, rfl, rfl, fun _ => rfl, fun _ => rfl, hst, ⟨rfl, rfl⟩, rfl, rfl⟩
  case taken =>
    rw [exec_ret_of_cons hst, State.checkTarget_ok hlt]
    exact ⟨_, rfl, rfl, rfl, fun _ => rfl, fun _ => rfl, ⟨rfl, rfl⟩, rfl, rfl, rfl⟩
  case fault =>
    rw [exec_ret_of_cons hst]
    exact State.checkTarget_faulted hout _

/-- Settles O49: a Call that did not fault has pushed npc, which the bounds make a legal target of the Ret. -/
theorem retReturnsAfterCall : Obligations.RetReturnsAfterCall := by
  intro s t u a hcall hnf hst hc hpc hcap
  rcases exec_call_next hcall with ⟨_, rfl⟩ | ⟨_, _, rfl⟩ | ⟨_, _, rfl⟩
  · exact absurd rfl hnf
  · exact absurd rfl hnf
  · have hnpc : (s.npc 1).toNat = s.pc.toNat + 2 := State.toNat_npc ⟨by omega, hcap⟩ hpc.le
    have hlt : (s.npc 1).toNat < u.config.memCapacity := by rwa [hc, hnpc]
    exact ⟨_, (exec_ret_of_cons hst).trans (State.checkTarget_ok hlt), hnpc, rfl⟩

end Sys2Proof.Machine
end

section
/-! Mod, And and Or, Rmem and In: the destination check, then the instruction's own (spec/44_alu.md, 45_memory_access.md,
47_io.md); then the subtraction Add gives (44_alu.md R160). -/

namespace Sys2Proof.Machine

/-! ### Arithmetic and logic -/

theorem getLsbD_andResult (b c : Cell) (k : Nat) :
    (andResult b c).getLsbD k = (b.getLsbD k && c.getLsbD k && decide (k < 15)) := by
  simp only [andResult, BitVec.getLsbD_and, getLsbD_wordMask]

theorem getLsbD_orResult (b c : Cell) (k : Nat) :
    (orResult b c).getLsbD k = ((b.getLsbD k || c.getLsbD k) && decide (k < 15)) := by
  simp only [orResult, BitVec.getLsbD_and, BitVec.getLsbD_or, getLsbD_wordMask]

theorem exec_and_eq (a b c : Operand) (s : State) :
    exec (.and a b c) s = s.checkDestination a fun i => s.writeResult i (andResult (s.value b) (s.value c)) 3 := rfl

theorem exec_or_eq (a b c : Operand) (s : State) :
    exec (.or a b c) s = s.checkDestination a fun i => s.writeResult i (orResult (s.value b) (s.value c)) 3 := rfl

theorem exec_mod_eq (a b c : Operand) (s : State) :
    exec (.mod a b c) s = s.checkDestination a fun i =>
      if s.value c = 0#16 then s.raise .divisionByZero .none
      else s.writeResult i (modResult (s.value b) (s.value c)) 3 := rfl

/-- Settles O20: behind the destination check the divisor decides between the fault and the write of `modResult`. -/
theorem modWritesRemainder : Obligations.ModWritesRemainder := by
  intro s b c
  refine ⟨fun _ => rfl, fun n => ?literal, fun i hz => ?zero, fun i hnz => ?register⟩
  all_goals rw [exec_mod_eq]
  case literal => exact s.checkDestination_lit_faulted n _
  case zero =>
    rw [State.checkDestination_reg, if_pos hz]
    exact s.raise_faulted _ _
  case register =>
    rw [State.checkDestination_reg, if_neg hnz]
    obtain ⟨t, ht, hreg, hpc, hframe⟩ := s.writeResult_next i (modResult (s.value b) (s.value c)) 3
    exact ⟨t, ht, hreg ▸ toNat_modResult _ _, hpc, hframe⟩

/-- Settles O21: And is the destination check followed by the write of `andResult`. -/
theorem andWritesBits : Obligations.AndWritesBits := by
  intro s b c
  refine ⟨fun _ => rfl, fun n => ?literal, fun i => ?register⟩
  all_goals rw [exec_and_eq]
  case literal => exact s.checkDestination_lit_faulted n _
  case register =>
    obtain ⟨t, ht, hreg, hpc, hframe⟩ := s.writeResult_next i (andResult (s.value b) (s.value c)) 3
    exact ⟨t, ht, fun k => hreg ▸ getLsbD_andResult _ _ k, hpc, hframe⟩

/-- Settles O22: Or is the destination check followed by the write of `orResult`. -/
theorem orWritesBits : Obligations.OrWritesBits := by
  intro s b c
  refine ⟨fun _ => rfl, fun n => ?literal, fun i => ?register⟩
  all_goals rw [exec_or_eq]
  case literal => exact s.checkDestination_lit_faulted n _
  case register =>
    obtain ⟨t, ht, hreg, hpc, hframe⟩ := s.writeResult_next i (orResult (s.value b) (s.value c)) 3
    exact ⟨t, ht, fun k => hreg ▸ getLsbD_orResult _ _ k, hpc, hframe⟩

/-- Settles O50: `b + (32768 - k)` and `b - k` differ by the modulus. -/
theorem addingComplementSubtracts : Obligations.AddingComplementSubtracts := by
  intro s i b c k hk hc
  obtain ⟨t, ht, hreg, _⟩ := s.writeResult_next i (addResult (s.value b) (s.value c)) 3
  refine ⟨t, (exec_add_eq (.reg i) b c s).trans ht, ?_⟩
  rw [hreg, toNat_addResult, hc]
  omega

/-! ### Rmem and In -/

theorem exec_rmem_eq (a b : Operand) (s : State) :
    exec (.rmem a b) s = s.checkDestination a fun i =>
      s.checkAddress (s.value b) (s.writeResult i (s.mem.readCell (s.value b).toNat) 2) := rfl

/-- Settles O24: Rmem is the destination check, the address check and the write of the cell. -/
theorem rmemCopiesCell : Obligations.RmemCopiesCell := by
  intro s b
  refine ⟨fun _ => rfl, fun n => ?literal, fun i hout => ?outOfRange, fun i hlt => ?register⟩
  all_goals rw [exec_rmem_eq]
  case literal => exact s.checkDestination_lit_faulted n _
  case outOfRange =>
    rw [State.checkDestination_reg, State.checkAddress_fault hout]
    exact s.raise_faulted _ _
  case register =>
    rw [State.checkDestination_reg, State.checkAddress_ok hlt]
    exact s.writeResult_next i _ 2

theorem exec_in_lit (n : Word) (s : State) : exec (.in_ (.lit n)) s = .next (s.badDestination n) := rfl

theorem exec_in_char {s : State} {v : Word} {rest : List Response} (i : Fin 8) (h : s.input = .char v :: rest) :
    exec (.in_ (.reg i)) s = (s.setInput rest).writeResult i (v.setWidth 16) 1 := by
  change execIn (.reg i) s = _
  rw [execIn, State.checkDestination_reg, h]

theorem exec_in_endOfInput {s : State} {rest : List Response} (i : Fin 8) (h : s.input = .endOfInput :: rest) :
    exec (.in_ (.reg i)) s = (s.setInput rest).finish .inputEof 1 := by
  change execIn (.reg i) s = _
  rw [execIn, State.checkDestination_reg, h]

theorem exec_in_ioError {s : State} {rest : List Response} (i : Fin 8) (h : s.input = .ioError :: rest) :
    exec (.in_ (.reg i)) s = (s.setInput rest).raise .ioError .none := by
  change execIn (.reg i) s = _
  rw [execIn, State.checkDestination_reg, h]

/-- Settles O29: one equation of `exec` for each response, for the wait and for the literal destination. -/
theorem inTakesOneResponse : Obligations.InTakesOneResponse := by
  intro s
  refine ⟨fun _ => rfl, fun n => ⟨_, exec_in_lit n s, s.badDestination_faulted n, rfl⟩, fun i v rest hin => ?char,
    fun i rest hin => ?eof, fun i rest hin => ?ioError, fun i => exec_in_wait i⟩
  case char =>
    have hreg : (((s.setInput rest).writeReg i (v.setWidth 16)).readReg i).toNat = v.toNat := by
      rw [State.writeReg_readReg_same]
      exact s.toNat_value_lit v
    exact ⟨_, exec_in_char i hin, hreg, rfl, rfl, fun j => (s.setInput rest).writeReg_readReg_ne i j _,
      fun _ => rfl, rfl, rfl, rfl, rfl, rfl⟩
  case eof =>
    exact ⟨_, exec_in_endOfInput i hin, rfl, rfl, fun _ => rfl, fun _ => rfl, rfl, rfl, rfl, rfl⟩
  case ioError =>
    exact ⟨_, exec_in_ioError i hin, rfl, rfl, rfl⟩

end Sys2Proof.Machine
end
